-- ==== Sys2Proof/Word.lean ====
section
/-! DEFINITION. The word types of the CORE (00_scope.md R12; 10_state.md R28). -/

namespace Sys2Proof

/-- R12: the 8-bit values held by registers, memory cells, immediates and results. -/
abbrev Byte := BitVec 8

/-- R28, R35: the width of the program counter, of `fault.pc` and of `fault.info`. -/
abbrev PcWord := BitVec 16

/-- R12: the unsigned reading `u(b)`, in 0 to 255. -/
abbrev unsignedOf (b : Byte) : Nat := b.toNat

/-- R12: the two's complement reading `s(b)`, in -128 to 127. -/
abbrev signedOf (b : Byte) : Int := b.toInt

end Sys2Proof
end

