-- ==== Sys2Proof/Syntax.lean ====
section
/-! DEFINITION. The syntax of the pythoncpu ISA: operands, instructions and their operations
(00_scope.md R3; 30_encoding.md R61, R62, R66, R67). -/

namespace Sys2Proof

/-- A typed operand: the kind its tag byte names, with its value byte (R66). Tag bytes 0x04 to 0xFF
name no kind (R67): such an operand keeps its tag byte, since the fault it raises records it. -/
inductive Operand where
  /-- Tag 0x00, data register `d<index>`. -/
  | dreg (index : Byte)
  /-- Tag 0x01, address register: admitted by no slot (R21, R68). -/
  | areg (value : Byte)
  /-- Tag 0x02, memory cell at `address`. -/
  | mem (address : Byte)
  /-- Tag 0x03, the byte itself. -/
  | imm (value : Byte)
  /-- A tag byte that names no operand kind. -/
  | unassigned (tag value : Byte)
  deriving DecidableEq, Repr

/-- The 15 instructions (R3) with their operand fields in the order of the encoding: source before
destination (R62). A branch carries its absolute target byte (R70). -/
inductive Instr where
  | noop
  | halt
  | moveB (src dest : Operand)
  | addB (src dest : Operand)
  | subB (src dest : Operand)
  | mulB (src dest : Operand)
  | divB (src dest : Operand)
  | inc (dest : Operand)
  | dec (dest : Operand)
  | cmpB (src dest : Operand)
  | jmp (target : Byte)
  | jnz (target : Byte)
  | jng (target : Byte)
  | jeq (target : Byte)
  | jne (target : Byte)
  deriving DecidableEq, Repr

/-- What an opcode byte selects: the rows of the opcode map (R64), without operand fields. -/
inductive Op where
  | noop | halt | moveB | addB | subB | mulB | divB | inc | dec | cmpB | jmp | jnz | jng | jeq | jne
  deriving DecidableEq, Repr

/-- The four instruction formats (R62): no operand, branch target, one and two typed operands. -/
inductive Format where
  | N | J | U | B
  deriving DecidableEq, Repr

end Sys2Proof
end

