-- ==== Sys2Proof/WellFormed.lean ====
section
/-! DEFINITION. Which terms of the syntax stand for an instruction's bytes (30_encoding.md R66, R67).
Whether a slot ADMITS an operand (R68) is no matter of well-formedness: a refused form has an
encoding, and executing it raises `UnsupportedAddressingMode` (Sys2Proof/Machine/Operands.lean). -/

namespace Sys2Proof

/-- R66, R67: only the tag bytes 0x04 to 0xFF name no kind, so each typed operand is written in
exactly one way. -/
def Operand.wellFormed : Operand → Bool
  | .dreg _ => true
  | .areg _ => true
  | .mem _ => true
  | .imm _ => true
  | .unassigned tag _ => decide (4 ≤ tag.toNat)

/-- R62: every typed operand of the instruction, in each of its slots, is well-formed. -/
def Instr.wellFormed : Instr → Bool
  | .noop => true
  | .halt => true
  | .moveB src dest => src.wellFormed && dest.wellFormed
  | .addB src dest => src.wellFormed && dest.wellFormed
  | .subB src dest => src.wellFormed && dest.wellFormed
  | .mulB src dest => src.wellFormed && dest.wellFormed
  | .divB src dest => src.wellFormed && dest.wellFormed
  | .inc dest => dest.wellFormed
  | .dec dest => dest.wellFormed
  | .cmpB src dest => src.wellFormed && dest.wellFormed
  | .jmp _ => true
  | .jnz _ => true
  | .jng _ => true
  | .jeq _ => true
  | .jne _ => true

end Sys2Proof
end

