-- ==== Sys2Proof/Decode.lean ====
section
/-! DEFINITION. The Instruction Set Descriptor: the opcode map and the tag map (one table each), the
decoder, total on any bytes, and the encoder (30_encoding.md R61 to R71, R77, R79). -/

namespace Sys2Proof

/-! ### The opcode map (R64) and the tag map (R66) -/

/-- The rows of the opcode map, in the table's order (R64). -/
def Op.all : List Op :=
  [.noop, .halt, .moveB, .addB, .subB, .mulB, .divB, .inc, .dec, .cmpB, .jmp, .jnz, .jng, .jeq, .jne]

/-- The opcode byte of each row (R64): the ONE table of the assignment (D5). -/
def Op.code : Op → Byte
  | .noop => 0x00
  | .halt => 0x01
  | .moveB => 0x02
  | .addB => 0x03
  | .subB => 0x04
  | .mulB => 0x05
  | .divB => 0x06
  | .inc => 0x07
  | .dec => 0x08
  | .cmpB => 0x09
  | .jmp => 0x0A
  | .jnz => 0x0B
  | .jng => 0x0C
  | .jeq => 0x0D
  | .jne => 0x0E

/-- The format column of the opcode map (R64). -/
def Op.format : Op → Format
  | .noop => .N
  | .halt => .N
  | .moveB => .B
  | .addB => .B
  | .subB => .B
  | .mulB => .B
  | .divB => .B
  | .inc => .U
  | .dec => .U
  | .cmpB => .B
  | .jmp => .J
  | .jnz => .J
  | .jng => .J
  | .jeq => .J
  | .jne => .J

/-- The length in bytes of each format (R62). -/
def Format.length : Format → Nat
  | .N => 1
  | .J => 2
  | .U => 3
  | .B => 5

/-- `LEN(op)`, told from the opcode alone (R63, R64). -/
def Op.length (op : Op) : Nat := op.format.length

/-- The operand_count column of the opcode map (R64). -/
def Op.operandCount (op : Op) : Nat :=
  match op.format with
  | .N => 0
  | .J => 1
  | .U => 1
  | .B => 2

/-- The mnemonic column of the opcode map (R64). -/
def Op.mnemonic : Op → String
  | .noop => "noop"
  | .halt => "halt"
  | .moveB => "move.b"
  | .addB => "add.b"
  | .subB => "sub.b"
  | .mulB => "mul.b"
  | .divB => "div.b"
  | .inc => "inc"
  | .dec => "dec"
  | .cmpB => "cmp.b"
  | .jmp => "jmp"
  | .jnz => "jnz"
  | .jng => "jng"
  | .jeq => "jeq"
  | .jne => "jne"

/-- The row of the opcode map that an opcode byte selects; none for the unassigned bytes 0x0F to 0xFF
(R64, R65). The decoder's lookup (R79). -/
def lookupOpcode (b : Byte) : Option Op := Op.all.find? fun op => op.code == b

/-- The longest instruction, in bytes (R61: an opcode byte and at most four field bytes). -/
def maxLength : Nat := 5

/-- The tag byte of a typed operand (R66). -/
def Operand.tag : Operand → Byte
  | .dreg _ => 0x00
  | .areg _ => 0x01
  | .mem _ => 0x02
  | .imm _ => 0x03
  | .unassigned tag _ => tag

/-- The value byte of a typed operand (R66, R69). -/
def Operand.valueByte : Operand → Byte
  | .dreg index => index
  | .areg value => value
  | .mem address => address
  | .imm value => value
  | .unassigned _ value => value

/-- The typed operand that a tag byte and a value byte stand for (R66, R67). -/
def operandOf (tag value : Byte) : Operand :=
  if tag = 0x00 then .dreg value
  else if tag = 0x01 then .areg value
  else if tag = 0x02 then .mem value
  else if tag = 0x03 then .imm value
  else .unassigned tag value

/-! ### The decoder (R71) -/

/-- Why a byte sequence holds no instruction at its head. -/
inductive DecodeReject where
  /-- There is no opcode byte. -/
  | noByte
  /-- The opcode byte is unassigned (R65). -/
  | unknownOpcode (op : Byte)
  /-- The opcode is assigned, but only `present` bytes are there and the instruction is longer (R71). -/
  | truncated (present : Nat)
  deriving DecidableEq, Repr

/-- Format J: one target byte after the opcode (R62). -/
def takeTarget (make : Byte → Instr) : List Byte → Except DecodeReject (Instr × List Byte)
  | target :: rest => .ok (make target, rest)
  | [] => .error (.truncated 1)

/-- Format U: the tag and the value byte of one operand after the opcode (R62). -/
def takeOne (make : Operand → Instr) : List Byte → Except DecodeReject (Instr × List Byte)
  | dt :: dv :: rest => .ok (make (operandOf dt dv), rest)
  | short => .error (.truncated (1 + short.length))

/-- Format B: tag and value of the source, then tag and value of the destination (R62). -/
def takeTwo (make : Operand → Operand → Instr) :
    List Byte → Except DecodeReject (Instr × List Byte)
  | st :: sv :: dt :: dv :: rest => .ok (make (operandOf st sv) (operandOf dt dv), rest)
  | short => .error (.truncated (1 + short.length))

/-- The fields after the opcode byte of each operation (R62, R64). -/
def decodeFields (op : Op) (fields : List Byte) : Except DecodeReject (Instr × List Byte) :=
  match op with
  | .noop => .ok (.noop, fields)
  | .halt => .ok (.halt, fields)
  | .moveB => takeTwo .moveB fields
  | .addB => takeTwo .addB fields
  | .subB => takeTwo .subB fields
  | .mulB => takeTwo .mulB fields
  | .divB => takeTwo .divB fields
  | .inc => takeOne .inc fields
  | .dec => takeOne .dec fields
  | .cmpB => takeTwo .cmpB fields
  | .jmp => takeTarget .jmp fields
  | .jnz => takeTarget .jnz fields
  | .jng => takeTarget .jng fields
  | .jeq => takeTarget .jeq fields
  | .jne => takeTarget .jne fields

/-- The instruction at the head of a byte sequence and the bytes after it (R71). The opcode is
resolved before any field byte is looked at (R65). -/
def decode : List Byte → Except DecodeReject (Instr × List Byte)
  | [] => .error .noByte
  | opcode :: fields =>
    match lookupOpcode opcode with
    | none => .error (.unknownOpcode opcode)
    | some op => decodeFields op fields

/-! ### The encoder (R77) -/

/-- The row of the opcode map an instruction belongs to (R64). -/
def Instr.op : Instr → Op
  | .noop => .noop
  | .halt => .halt
  | .moveB _ _ => .moveB
  | .addB _ _ => .addB
  | .subB _ _ => .subB
  | .mulB _ _ => .mulB
  | .divB _ _ => .divB
  | .inc _ => .inc
  | .dec _ => .dec
  | .cmpB _ _ => .cmpB
  | .jmp _ => .jmp
  | .jnz _ => .jnz
  | .jng _ => .jng
  | .jeq _ => .jeq
  | .jne _ => .jne

/-- Tag byte, then value byte (R62, R66). -/
def encodeOperand (o : Operand) : List Byte := [o.tag, o.valueByte]

/-- The field bytes after the opcode, in the order of R62. -/
def encodeFields : Instr → List Byte
  | .noop => []
  | .halt => []
  | .moveB src dest => encodeOperand src ++ encodeOperand dest
  | .addB src dest => encodeOperand src ++ encodeOperand dest
  | .subB src dest => encodeOperand src ++ encodeOperand dest
  | .mulB src dest => encodeOperand src ++ encodeOperand dest
  | .divB src dest => encodeOperand src ++ encodeOperand dest
  | .inc dest => encodeOperand dest
  | .dec dest => encodeOperand dest
  | .cmpB src dest => encodeOperand src ++ encodeOperand dest
  | .jmp target => [target]
  | .jnz target => [target]
  | .jng target => [target]
  | .jeq target => [target]
  | .jne target => [target]

/-- The bytes of an instruction at increasing addresses: the opcode, then each field (R49, R77). -/
def encode (i : Instr) : List Byte := i.op.code :: encodeFields i

/-! ### The descriptor lookup by text (R79) -/

/-- One record of the Instruction Set Descriptor (R79; 00_scope.md glossary). -/
structure Descriptor where
  mnemonic : String
  code : Byte
  operandCount : Nat
  length : Nat
  deriving DecidableEq, Repr

/-- The record of one row of the opcode map (R64). -/
def Op.descriptor (op : Op) : Descriptor :=
  { mnemonic := op.mnemonic, code := op.code, operandCount := op.operandCount, length := op.length }

/-- One hexadecimal digit as text, letters in capitals as in R79's example. -/
def hexDigit (n : Nat) : Char := "0123456789ABCDEF".toList.getD n '0'

/-- "The two-hex-digit opcode byte rendered as text" (R79). -/
def hexText (b : Byte) : List Char := [hexDigit (b.toNat / 16), hexDigit (b.toNat % 16)]

/-- R79: resolves a mnemonic or the two-hex-digit opcode byte to the same descriptor; none is the
assembly-time `UnknownOpcode`. -/
def lookupText (identifier : String) : Option Descriptor :=
  (Op.all.find? fun op =>
    op.mnemonic.toList == identifier.toList || hexText op.code == identifier.toList).map Op.descriptor

/-! ### The opcode table's numbering -/

/-- The bytes of an instruction of `nbits` bits whose value is `w`. spec/opcode_table.json and R62 read
an instruction as one number with byte 0 MOST significant (R11), so byte 0 is the top byte. Bytes above
`nbits`, up to the longest instruction, are 0x00. -/
def tableBytes (nbits w : Nat) : List Byte :=
  let count := (nbits + 7) / 8
  (List.range count).map (fun k => BitVec.ofNat 8 (w >>> (8 * (count - 1 - k)))) ++
    List.replicate (maxLength - count) 0x00

/-- The instruction the decoder reads from a word numbered as spec/opcode_table.json numbers it. -/
def decodeTableWord (nbits w : Nat) : Option Instr :=
  match decode (tableBytes nbits w) with
  | .ok (i, _) => some i
  | .error _ => none

end Sys2Proof
end

