-- ==== Sys2Proof/Config.lean ====
section
/-! DEFINITION. The implementation parameters of the CORE (00_scope.md R7, R8, R10;
92_eei_decisions.md D3, D4, D10) and what an unlisted memory cell reads as (20_memory.md R52). -/

namespace Sys2Proof

/-- R10, D10: the rounding of `div.b`. Every rule of the spec uses `trunc`; `floor` is the optional
variation it lets a model expose. -/
inductive DivRound where
  | trunc
  | floor
  deriving DecidableEq, Repr

/-- The parameters of one machine. R7 and R8 bound both counts by 1 and 256; each is held as its
highest valid index, so that every value of this type is a legal parameter. -/
structure Config where
  /-- The highest valid address, `MEM_CAP - 1` (R7). -/
  lastAddr : Fin 256
  /-- The highest data-register number, `NUM_DREGS - 1` (R8). -/
  lastDreg : Fin 256
  /-- `DIV_ROUND` (R10). -/
  divRound : DivRound
  deriving DecidableEq, Repr

/-- `MEM_CAP`, the number of byte cells of the memory (R7). -/
def Config.memCap (c : Config) : Nat := c.lastAddr.val + 1

/-- `NUM_DREGS`, the number of data registers (R8). -/
def Config.numDregs (c : Config) : Nat := c.lastDreg.val + 1

/-- The defaults of the spec: `MEM_CAP = 256` (R7), `NUM_DREGS = 8` (R8), `DIV_ROUND = trunc` (R10). -/
def Config.default : Config := { lastAddr := 255, lastDreg := 7, divRound := .trunc }

/-- What a cell that the memory list does not hold reads as: every cell outside the image is 0x00
(R42, R52). -/
def Config.unlistedCell : Byte := 0x00

end Sys2Proof
end

