-- ==== Sys2Proof/Machine/Arith.lean ====
section
/-! DEFINITION. The integer arithmetic of the CORE (00_scope.md R12; 41_arithmetic.md R89). -/

namespace Sys2Proof.Machine

/-- R12: the Byte `b` with `u(b) = n mod 256`. -/
def wrap8 (n : Int) : Byte := BitVec.ofInt 8 n

/-- R12: the 16-bit value with the same unsigned reading. -/
def zext16 (b : Byte) : PcWord := BitVec.setWidth 16 b

/-- R90: `dest + src`. -/
def addBytes (dest src : Byte) : Byte := wrap8 (signedOf dest + signedOf src)

/-- R91, R97: `dest - src`. -/
def subBytes (dest src : Byte) : Byte := wrap8 (signedOf dest - signedOf src)

/-- R92: the low byte of `dest * src`. -/
def mulBytes (dest src : Byte) : Byte := wrap8 (signedOf dest * signedOf src)

/-- R93, R10: the exact quotient of two integers, rounded as `DIV_ROUND` says. -/
def quotient (round : DivRound) (dividend divisor : Int) : Int :=
  match round with
  | .trunc => dividend.tdiv divisor
  | .floor => dividend.fdiv divisor

/-- R93: `dest / src` for a divisor that is not zero. -/
def divBytes (round : DivRound) (dest src : Byte) : Byte :=
  wrap8 (quotient round (signedOf dest) (signedOf src))

/-- R95: `old + 1`. -/
def incByte (old : Byte) : Byte := wrap8 ((unsignedOf old : Int) + 1)

/-- R96: `old - 1`. -/
def decByte (old : Byte) : Byte := wrap8 ((unsignedOf old : Int) - 1)

end Sys2Proof.Machine
end

