-- ==== Sys2Proof/Machine/State.lean ====
section
/-! DEFINITION. The architectural state of the CORE (10_state.md R15), its value after reset, and the
reasons a request can stop. -/

namespace Sys2Proof.Machine

/-- R32: the execution state machine. Its status-interface codes are `Status.code`. -/
inductive Status where
  | running
  | halted
  | faulted
  deriving DecidableEq, Repr

/-- R35, R108: the four faults the CORE raises, and none. The record's codes are `FaultCause.code`. -/
inductive FaultCause where
  /-- No fault has been raised since reset. -/
  | none
  /-- R109: the opcode byte is unassigned. -/
  | unknownOpcode
  /-- R110: an instruction byte, a register index or a cell address is out of range. -/
  | outOfBounds
  /-- R111: `div.b` with a zero divisor. -/
  | divisionByZero
  /-- R112: an operand's tag is not admitted by its slot. -/
  | unsupportedAddressingMode
  deriving DecidableEq, Repr

/-- R35: which space a fault's value belongs to. The record's codes are `FaultSpace.code`. -/
inductive FaultSpace where
  | none
  | fetch
  | data
  | register
  deriving DecidableEq, Repr

/-- R22: the five condition flags. -/
structure Flags where
  n : Bool
  z : Bool
  c : Bool
  v : Bool
  e : Bool
  deriving DecidableEq, Repr

/-- R35: the fault record. `cause` and `space` take only the values the rule lists, so they are names;
the bytes the host reads are their codes (R129). -/
structure FaultRecord where
  cause : FaultCause
  pc : PcWord
  space : FaultSpace
  info : PcWord
  deriving DecidableEq, Repr

/-- The cells of memory (R43) that do not read as `Config.unlistedCell`: `Memory.wf` is its one
canonical form. -/
abbrev Memory := List Host.Cell

/-- The canonical form: addresses strictly rising, no entry equal to what an unlisted cell reads as. -/
def Memory.wf : Memory → Bool
  | [] => true
  | (a, v) :: rest =>
    v != Config.unlistedCell && rest.all (fun cell => decide (a < cell.1)) && Memory.wf rest

/-- R15: everything the CORE holds between steps, with the parameters of the machine (`cfg`, which is
no state of the spec: assumption log 1). -/
structure State where
  /-- The parameters (R7, R8, R10): no step changes them. -/
  cfg : Config
  /-- `M[0..MEM_CAP-1]` (R43). -/
  mem : Memory
  /-- `x[0..NUM_DREGS-1]`, register 0 first (R16). -/
  dregs : List Byte
  /-- `N Z C V E` (R22). -/
  flags : Flags
  /-- The program counter (R28). -/
  pc : PcWord
  /-- The execution state `state` (R32). -/
  status : Status
  /-- The fault record (R35). -/
  fault : FaultRecord
  deriving DecidableEq, Repr

/-- The host's `fault` outcome. It has NO constructor: every fault of this CORE is a state the machine
goes on to (R37: status `Faulted`, the fault record written), so no step and no meaning ends in this
outcome. Safe: the model never stops where the spec gives an effect (assumption log 4). -/
inductive Fault where
  deriving DecidableEq, Repr

/-- The host's `refused` outcome. -/
inductive Refusal where
  /-- An instruction without a meaning. Raised by no arm: every instruction has its meaning. Safe. -/
  | notModelled (mnemonic : String)
  /-- R124, D20: a Load of an image of `length` bytes, more than `MEM_CAP`; no run starts. Raised by
  `load` only, never by a step. Safe. -/
  | imageTooLong (length : Nat)
  deriving DecidableEq, Repr

/-- R22: all five flags clear. -/
def Flags.clear : Flags := { n := false, z := false, c := false, v := false, e := false }

/-- R42: the fault record after reset. -/
def FaultRecord.clear : FaultRecord := { cause := .none, pc := 0, space := .none, info := 0 }

/-- R42 for an empty image: the CORE as constructed with the given parameters and entry offset. -/
def State.fresh (cfg : Config) (start : PcWord) : State where
  cfg := cfg
  mem := []
  dregs := List.replicate cfg.numDregs 0x00
  flags := Flags.clear
  pc := start
  status := .running
  fault := FaultRecord.clear

/-- R123: the machine right after reset, with the default parameters. The image and `START` are the
host's (R124); here the image is empty and `START` is 0 (assumption log 2). -/
def State.reset : State := State.fresh Config.default 0

end Sys2Proof.Machine
end

