-- ==== Sys2Proof/Machine/Flags.lean ====
section
/-! DEFINITION. The flag computations (10_state.md R23, R24, R27). -/

namespace Sys2Proof.Machine

/-- R27 `SetNZ(r)`: N is bit 7 of the result, Z says that the result is zero. -/
def Flags.setNZ (f : Flags) (r : Byte) : Flags := { f with n := r.getLsbD 7, z := r == 0x00 }

/-- R24, R25: carry and overflow are always written 0. -/
def Flags.clearCV (f : Flags) : Flags := { f with c := false, v := false }

/-- R24: E says whether the operands were equal before any write. -/
def Flags.setE (f : Flags) (dest src : Byte) : Flags := { f with e := dest == src }

/-- R24, the rows of `move.b`, the four two-operand arithmetic instructions and `cmp.b`. -/
def Flags.afterResult (f : Flags) (r dest src : Byte) : Flags := ((f.setNZ r).clearCV).setE dest src

/-- R24, the row of `inc` and `dec`: E is unchanged. -/
def Flags.afterStep (f : Flags) (r : Byte) : Flags := (f.setNZ r).clearCV

end Sys2Proof.Machine
end

