-- ==== Sys2Proof/Machine/Ops.lean ====
section
/-! DEFINITION. The named operations over memory, registers and the program counter, and taking a
fault (20_memory.md R46; 10_state.md R18, R29, R37). -/

namespace Sys2Proof.Machine

/-! ### Memory as a list of cells -/

/-- The byte the list gives an address. -/
def Memory.lookup : Memory → Nat → Byte
  | [], _ => Config.unlistedCell
  | (k, v) :: rest, a => if k = a then v else Memory.lookup rest a

/-- The list without the cell at `a`. -/
def Memory.erase (m : Memory) (a : Nat) : Memory := m.filter fun cell => decide (cell.1 ≠ a)

/-- The list with `v` at `a`, in rising order. -/
def Memory.insert : Memory → Nat → Byte → Memory
  | [], a, v => [(a, v)]
  | (k, w) :: rest, a, v =>
    if a < k then (a, v) :: (k, w) :: rest
    else if k = a then (a, v) :: rest
    else (k, w) :: Memory.insert rest a v

/-- A write that keeps the canonical form: a cell that reads as unlisted is not listed. -/
def Memory.store (m : Memory) (a : Nat) (v : Byte) : Memory :=
  if v = Config.unlistedCell then Memory.erase m a else Memory.insert m a v

/-- Bytes written at increasing addresses from `a` on (R124). -/
def Memory.storeAll (m : Memory) (a : Nat) : List Byte → Memory
  | [] => m
  | b :: bs => Memory.storeAll (Memory.store m a b) (a + 1) bs

/-! ### The primitives of the rules -/

/-- R46 `MemRead(a, 1)`; the rules use it only for `a < MEM_CAP`. -/
def State.readMem (s : State) (a : Nat) : Byte := Memory.lookup s.mem a

/-- R46 `MemWrite(a, 1, v)`; the rules use it only for `a < MEM_CAP`. -/
def State.writeMem (s : State) (a : Nat) (v : Byte) : State :=
  { s with mem := Memory.store s.mem a v }

/-- R18: data register `d<i>`; the rules use it only for `i < NUM_DREGS`. -/
def State.readDreg (s : State) (i : Nat) : Byte := s.dregs.getD i 0x00

/-- The register list with `v` at `i`. -/
def putDreg : List Byte → Nat → Byte → List Byte
  | [], 0, v => [v]
  | [], i + 1, v => 0x00 :: putDreg [] i v
  | _ :: rest, 0, v => v :: rest
  | w :: rest, i + 1, v => w :: putDreg rest i v

/-- R18: writes data register `d<i>`; the rules use it only for `i < NUM_DREGS`. -/
def State.writeDreg (s : State) (i : Nat) (v : Byte) : State := { s with dregs := putDreg s.dregs i v }

/-- The five flags replaced. -/
def State.setFlags (s : State) (f : Flags) : State := { s with flags := f }

/-- R29: `pc <- pc + LEN(op)`. -/
def State.advance (s : State) (op : Op) : State := { s with pc := s.pc + BitVec.ofNat 16 op.length }

/-- R29, R99: `pc <- zext_16(target)`. -/
def State.jumpTo (s : State) (target : Byte) : State := { s with pc := zext16 target }

/-! ### Taking a fault -/

/-- The arguments of a `raise` (R37). -/
structure Raise where
  cause : FaultCause
  space : FaultSpace
  info : PcWord
  deriving DecidableEq, Repr

/-- R37, R114: taking a fault is the whole of this: the status and the fault record are written, the
record with the pc of the faulting instruction, and nothing else changes. There is no return from a
fault (R115). -/
def State.raise (s : State) (r : Raise) : State :=
  { s with
    status := .faulted
    fault := { cause := r.cause, pc := s.pc, space := r.space, info := r.info } }

/-- R109. -/
def Raise.unknownOpcode (opcode : Byte) : Raise :=
  { cause := .unknownOpcode, space := .fetch, info := zext16 opcode }

/-- R110: the address or index that was out of range, with the space it belongs to. -/
def Raise.outOfBounds (space : FaultSpace) (value : Nat) : Raise :=
  { cause := .outOfBounds, space := space, info := BitVec.ofNat 16 value }

/-- R111. -/
def Raise.divisionByZero : Raise := { cause := .divisionByZero, space := .none, info := 0 }

/-- R112: records the tag byte. -/
def Raise.unsupportedAddressingMode (tag : Byte) : Raise :=
  { cause := .unsupportedAddressingMode, space := .none, info := zext16 tag }

/-! ### Codes of the status interface -/

/-- R32. -/
def Status.code : Status → Byte
  | .running => 0
  | .halted => 1
  | .faulted => 2

/-- R35, R108. -/
def FaultCause.code : FaultCause → Byte
  | .none => 0
  | .unknownOpcode => 1
  | .outOfBounds => 2
  | .divisionByZero => 3
  | .unsupportedAddressingMode => 4

/-- R35. -/
def FaultSpace.code : FaultSpace → Byte
  | .none => 0
  | .fetch => 1
  | .data => 2
  | .register => 3

end Sys2Proof.Machine
end

