-- ==== Sys2Proof/Machine/Operands.lean ====
section
/-! DEFINITION. Operand forms: what each slot admits, the checks of forms and ranges, reading and
writing an operand (30_encoding.md R68, R69, R72 to R75). -/

namespace Sys2Proof.Machine

/-- The operand kinds a tag byte can name (R66). -/
inductive Kind where
  | dreg | areg | mem | imm
  deriving DecidableEq, Repr

/-- R68: the kinds the source slot of an instruction admits. -/
def srcAdmits : Op → List Kind
  | .moveB => [.dreg, .imm]
  | .addB => [.dreg, .imm]
  | .subB => [.dreg, .imm]
  | .mulB => [.dreg, .imm]
  | .divB => [.dreg, .imm]
  | .cmpB => [.dreg, .imm]
  | .noop => []
  | .halt => []
  | .inc => []
  | .dec => []
  | .jmp => []
  | .jnz => []
  | .jng => []
  | .jeq => []
  | .jne => []

/-- R68: the kinds the destination slot of an instruction admits. -/
def destAdmits : Op → List Kind
  | .moveB => [.dreg, .mem]
  | .addB => [.dreg]
  | .subB => [.dreg]
  | .mulB => [.dreg]
  | .divB => [.dreg]
  | .inc => [.dreg, .mem, .imm]
  | .dec => [.dreg, .mem, .imm]
  | .cmpB => [.dreg, .imm]
  | .noop => []
  | .halt => []
  | .jmp => []
  | .jnz => []
  | .jng => []
  | .jeq => []
  | .jne => []

/-- R69: what an admitted operand stands for. There is no place for an address register (R21) nor for a
tag that names no kind (R67): those never pass `admitted`. -/
inductive Place where
  | dreg (index : Byte)
  | mem (address : Byte)
  | imm (value : Byte)
  deriving DecidableEq, Repr

/-- R72 for one slot: the place of an operand whose kind the slot admits, or the fault that records its
tag byte. -/
def admitted (kinds : List Kind) (o : Operand) : Except Raise Place :=
  match o with
  | .dreg index =>
    if kinds.contains .dreg then .ok (.dreg index) else .error (.unsupportedAddressingMode o.tag)
  | .areg _ => .error (.unsupportedAddressingMode o.tag)
  | .mem address =>
    if kinds.contains .mem then .ok (.mem address) else .error (.unsupportedAddressingMode o.tag)
  | .imm value =>
    if kinds.contains .imm then .ok (.imm value) else .error (.unsupportedAddressingMode o.tag)
  | .unassigned _ _ => .error (.unsupportedAddressingMode o.tag)

/-- R73 for one operand: a register index or an address must exist; an immediate is never checked. -/
def checkRange (cfg : Config) (p : Place) : Except Raise Unit :=
  match p with
  | .dreg index =>
    if index.toNat < cfg.numDregs then .ok () else .error (.outOfBounds .register index.toNat)
  | .mem address =>
    if address.toNat < cfg.memCap then .ok () else .error (.outOfBounds .data address.toNat)
  | .imm _ => .ok ()

/-- R72 then R73 for format U. -/
def resolveOne (op : Op) (dest : Operand) (cfg : Config) : Except Raise Place :=
  match admitted (destAdmits op) dest with
  | .error r => .error r
  | .ok d =>
    match checkRange cfg d with
    | .error r => .error r
    | .ok () => .ok d

/-- R72 then R73 for format B, in the order of R113: source form, destination form, source range,
destination range. -/
def resolveTwo (op : Op) (src dest : Operand) (cfg : Config) : Except Raise (Place × Place) :=
  match admitted (srcAdmits op) src with
  | .error r => .error r
  | .ok a =>
    match admitted (destAdmits op) dest with
    | .error r => .error r
    | .ok d =>
      match checkRange cfg a with
      | .error r => .error r
      | .ok () =>
        match checkRange cfg d with
        | .error r => .error r
        | .ok () => .ok (a, d)

/-- R74 `ReadOperand`. -/
def State.readPlace (s : State) : Place → Byte
  | .dreg index => s.readDreg index.toNat
  | .mem address => s.readMem address.toNat
  | .imm value => value

/-- R75 `WriteOperand`: an immediate destination is inert. -/
def State.writePlace (s : State) (p : Place) (r : Byte) : State :=
  match p with
  | .dreg index => s.writeDreg index.toNat r
  | .mem address => s.writeMem address.toNat r
  | .imm _ => s

/-- An instruction of format U: the checks, then `execute` on the destination's place. A failed check
takes its fault (R37). -/
def withOne (op : Op) (dest : Operand) (s : State) (execute : Place → State) :
    Host.Outcome State Fault Refusal :=
  match resolveOne op dest s.cfg with
  | .error r => .next (s.raise r)
  | .ok d => .next (execute d)

/-- An instruction of format B: the checks, then `execute` on the places of source and destination. A
failed check takes its fault (R37). -/
def withTwo (op : Op) (src dest : Operand) (s : State) (execute : Place → Place → State) :
    Host.Outcome State Fault Refusal :=
  match resolveTwo op src dest s.cfg with
  | .error r => .next (s.raise r)
  | .ok (a, d) => .next (execute a d)

end Sys2Proof.Machine
end

