-- ==== Sys2Proof/Machine/Arithmetic.lean ====
section
/-! DEFINITION. Arithmetic (41_arithmetic.md). -/

namespace Sys2Proof.Machine

/-- R89, R90 to R93: `dest <- dest op src` on the values read before any write, with the flags of
R24. -/
def State.combine (s : State) (op : Op) (f : Byte → Byte → Byte) (a d : Place) : State :=
  let x := s.readPlace a
  let y := s.readPlace d
  let r := f y x
  ((s.writePlace d r).setFlags (s.flags.afterResult r y x)).advance op

/-- R95, R96: `dest <- f dest` with the flags of R24, E unchanged. -/
def State.count (s : State) (op : Op) (f : Byte → Byte) (d : Place) : State :=
  let r := f (s.readPlace d)
  ((s.writePlace d r).setFlags (s.flags.afterStep r)).advance op

/-- R90 `add.b src, dest`. -/
def execAddB (src dest : Operand) (s : State) : Host.Outcome State Fault Refusal :=
  withTwo .addB src dest s (s.combine .addB addBytes)

/-- R91 `sub.b src, dest`. -/
def execSubB (src dest : Operand) (s : State) : Host.Outcome State Fault Refusal :=
  withTwo .subB src dest s (s.combine .subB subBytes)

/-- R92 `mul.b src, dest`. -/
def execMulB (src dest : Operand) (s : State) : Host.Outcome State Fault Refusal :=
  withTwo .mulB src dest s (s.combine .mulB mulBytes)

/-- R93 `div.b src, dest`: a zero divisor raises `DivisionByZero` after the checks of forms and ranges
and before any write (R111, R113). -/
def execDivB (src dest : Operand) (s : State) : Host.Outcome State Fault Refusal :=
  withTwo .divB src dest s fun a d =>
    if s.readPlace a = 0x00 then s.raise .divisionByZero
    else s.combine .divB (divBytes s.cfg.divRound) a d

/-- R95 `inc dest`. -/
def execInc (dest : Operand) (s : State) : Host.Outcome State Fault Refusal :=
  withOne .inc dest s (s.count .inc incByte)

/-- R96 `dec dest`. -/
def execDec (dest : Operand) (s : State) : Host.Outcome State Fault Refusal :=
  withOne .dec dest s (s.count .dec decByte)

end Sys2Proof.Machine
end

