-- ==== Sys2Proof/Machine/Branch.lean ====
section
/-! DEFINITION. Control transfer (43_branch.md). The target is not checked here: one at or above
`MEM_CAP` faults at the next fetch (R99). -/

namespace Sys2Proof.Machine

/-- R99: a taken branch writes pc with its target, one not taken advances by its length. -/
def State.branch (s : State) (op : Op) (taken : Bool) (target : Byte) : State :=
  if taken then s.jumpTo target else s.advance op

/-- R100 `jmp label`. -/
def execJmp (target : Byte) (s : State) : Host.Outcome State Fault Refusal :=
  .next (s.branch .jmp true target)

/-- R101 `jnz label`: taken when Z = 1 (90_conflicts.md C2). -/
def execJnz (target : Byte) (s : State) : Host.Outcome State Fault Refusal :=
  .next (s.branch .jnz s.flags.z target)

/-- R102 `jng label`: taken when N = 1 (90_conflicts.md C2). -/
def execJng (target : Byte) (s : State) : Host.Outcome State Fault Refusal :=
  .next (s.branch .jng s.flags.n target)

/-- R103 `jeq label`: taken when E = 1. -/
def execJeq (target : Byte) (s : State) : Host.Outcome State Fault Refusal :=
  .next (s.branch .jeq s.flags.e target)

/-- R104 `jne label`: taken when E = 0. -/
def execJne (target : Byte) (s : State) : Host.Outcome State Fault Refusal :=
  .next (s.branch .jne (!s.flags.e) target)

end Sys2Proof.Machine
end

