-- ==== Sys2Proof/Machine/Compare.lean ====
section
/-! DEFINITION. Compare (42_compare.md). -/

namespace Sys2Proof.Machine

/-- R97 `cmp.b src, dest`: the flags of `dest - src`; no operand is written. -/
def execCmpB (src dest : Operand) (s : State) : Host.Outcome State Fault Refusal :=
  withTwo .cmpB src dest s fun a d =>
    let x := s.readPlace a
    let y := s.readPlace d
    (s.setFlags (s.flags.afterResult (subBytes y x) y x)).advance .cmpB

end Sys2Proof.Machine
end

