-- ==== Sys2Proof/Machine/Control.lean ====
section
/-! DEFINITION. Control (44_control.md). -/

namespace Sys2Proof.Machine

/-- R106 `noop`. -/
def execNoop (s : State) : Host.Outcome State Fault Refusal := .next (s.advance .noop)

/-- R107 `halt`: enters `Halted` and advances pc (D14). -/
def execHalt (s : State) : Host.Outcome State Fault Refusal :=
  .next { s.advance .halt with status := .halted }

end Sys2Proof.Machine
end

