-- ==== Sys2Proof/Machine/Move.lean ====
section
/-! DEFINITION. Data movement (40_move.md). -/

namespace Sys2Proof.Machine

/-- R88 `move.b src, dest`. -/
def execMoveB (src dest : Operand) (s : State) : Host.Outcome State Fault Refusal :=
  withTwo .moveB src dest s fun a d =>
    let v := s.readPlace a
    let old := s.readPlace d
    ((s.writePlace d v).setFlags (s.flags.afterResult v old v)).advance .moveB

end Sys2Proof.Machine
end

