-- ==== Sys2Proof/Machine/Dispatch.lean ====
section
/-! DEFINITION. The execute phase of a step (10_state.md R36): one arm per instruction. It runs after
the fetch and the decode; each meaning makes the checks of forms and ranges (R72, R73) itself. -/

namespace Sys2Proof.Machine

def exec (i : Instr) (s : State) : Host.Outcome State Fault Refusal :=
  match i with
  | .noop => Sys2Proof.Machine.execNoop s
  | .halt => Sys2Proof.Machine.execHalt s
  | .moveB src dest => Sys2Proof.Machine.execMoveB src dest s
  | .addB src dest => Sys2Proof.Machine.execAddB src dest s
  | .subB src dest => Sys2Proof.Machine.execSubB src dest s
  | .mulB src dest => Sys2Proof.Machine.execMulB src dest s
  | .divB src dest => Sys2Proof.Machine.execDivB src dest s
  | .inc dest => Sys2Proof.Machine.execInc dest s
  | .dec dest => Sys2Proof.Machine.execDec dest s
  | .cmpB src dest => Sys2Proof.Machine.execCmpB src dest s
  | .jmp target => Sys2Proof.Machine.execJmp target s
  | .jnz target => Sys2Proof.Machine.execJnz target s
  | .jng target => Sys2Proof.Machine.execJng target s
  | .jeq target => Sys2Proof.Machine.execJeq target s
  | .jne target => Sys2Proof.Machine.execJne target s

end Sys2Proof.Machine
end

