-- ==== Sys2Proof/Machine/Fetch.lean ====
section
/-! DEFINITION. Fetching an instruction from memory (30_encoding.md R71) and placing one there. -/

namespace Sys2Proof.Machine

/-- The instruction bytes that exist from pc on: the cells `pc`, `pc+1`, ... below `MEM_CAP`, as many
as the longest instruction has. -/
def State.fetchBytes (s : State) : List Byte :=
  (List.range (min maxLength (s.cfg.memCap - s.pc.toNat))).map fun k => s.readMem (s.pc.toNat + k)

/-- R71 `Decode(pc)`: the instruction at pc, or the fault its fetch raises, in the order of R113: the
opcode's address, the opcode, the first later byte beyond the end. -/
def State.fetch (s : State) : Except Raise Instr :=
  match decode s.fetchBytes with
  | .ok (i, _) => .ok i
  | .error .noByte => .error (.outOfBounds .fetch s.pc.toNat)
  | .error (.unknownOpcode opcode) => .error (.unknownOpcode opcode)
  | .error (.truncated present) => .error (.outOfBounds .fetch (s.pc.toNat + present))

/-- Stores bytes from address `a` on in the cells that exist. -/
def State.placeBytes (s : State) (a : Nat) (bytes : List Byte) : State :=
  { s with mem := Memory.storeAll s.mem a (bytes.take (s.cfg.memCap - a)) }

/-- The state with the instruction of an opcode-table word at pc, ready to run: the word stands for the
part of a loaded image that the next step fetches (R124; assumption log 6). -/
def State.placeTableWord (s : State) (nbits w : Nat) : State :=
  { s.placeBytes s.pc.toNat (tableBytes nbits w) with status := .running }

end Sys2Proof.Machine
end

