-- ==== Sys2Proof/Machine/Step.lean ====
section
/-! DEFINITION. One step of the CORE (10_state.md R36). -/

namespace Sys2Proof.Machine

/-- R36 `Step()`. In `Halted` and `Faulted` it changes nothing (R34; assumption log 3). A failed fetch
takes its fault (R37). -/
def step (s : State) : Host.Outcome State Fault Refusal :=
  match s.status with
  | .running =>
    match s.fetch with
    | .error r => .next (s.raise r)
    | .ok i => exec i s
  | .halted => .next s
  | .faulted => .next s

/-- The state in which the very next step fetches and runs the given opcode-table word. -/
def State.withFetchWord (s : State) (nbits w : Nat) : State := s.placeTableWord nbits w

end Sys2Proof.Machine
end

