-- ==== Sys2Proof/Machine/Requests.lean ====
section
/-! DEFINITION. The host's requests besides `Step` (70_reset_and_hazards.md R124, R126, R129;
10_state.md R38). -/

namespace Sys2Proof.Machine

/-- R122, R124 `Load(image, START)`: construction of the CORE with the image in memory from address 0.
It is allowed in every state and discards all of it but the parameters. An image longer than memory is
refused and the CORE is not changed (the caller keeps `s`). -/
def State.load (s : State) (image : List Byte) (start : PcWord) : Host.Outcome State Fault Refusal :=
  if image.length ≤ s.cfg.memCap then
    .next { State.fresh s.cfg start with mem := Memory.storeAll [] 0 image }
  else .refused (.imageTooLong image.length)

/-- R38 `Run()`, for at most `limit` steps: `Step()` is repeated while the status is `Running`. The
CORE has no step limit; the bound is the model's (assumption log 12). -/
def runFor : Nat → State → Host.Outcome State Fault Refusal
  | 0, s => .next s
  | limit + 1, s =>
    match s.status with
    | .running =>
      match step s with
      | .next t => runFor limit t
      | .fault r => .fault r
      | .refused r => .refused r
    | .halted => .next s
    | .faulted => .next s

/-- What `Inspect()` returns (R126), with the codes of the status interface (R32, R35). -/
structure Snapshot where
  dregs : List Byte
  n : Bool
  z : Bool
  c : Bool
  v : Bool
  e : Bool
  mem : List Byte
  pc : PcWord
  state : Byte
  faultCause : Byte
  faultPc : PcWord
  faultSpace : Byte
  faultInfo : PcWord
  deriving DecidableEq, Repr

/-- R129 `Inspect()`: the values as they stand between steps. Reads have no side effect (R46). -/
def State.inspect (s : State) : Snapshot where
  dregs := (List.range s.cfg.numDregs).map s.readDreg
  n := s.flags.n
  z := s.flags.z
  c := s.flags.c
  v := s.flags.v
  e := s.flags.e
  mem := (List.range s.cfg.memCap).map s.readMem
  pc := s.pc
  state := s.status.code
  faultCause := s.fault.cause.code
  faultPc := s.fault.pc
  faultSpace := s.fault.space.code
  faultInfo := s.fault.info

end Sys2Proof.Machine
end

