-- ==== Sys2Proof/Safety.lean ====
section
/-! DEFINITION. The terms claims use: transitions, reachable states, the invariant of the machine, and
what a part of the state keeps (10_state.md R25, R33 to R38). -/

namespace Sys2Proof.Machine

/-- R34: a transition of the CORE. None is enabled from `Halted` or `Faulted`, where a requested step
changes nothing. -/
def Transition (s t : State) : Prop := s.status = .running ∧ step s = .next t

/-- The states a machine with parameters `cfg` can be in: after a load of some image that fits (R124),
and after any step from such a state. -/
inductive Reachable (cfg : Config) : State → Prop where
  | loaded (s t : State) (image : List Byte) (start : PcWord) :
      s.cfg = cfg → s.load image start = .next t → Reachable cfg t
  | stepped (s t : State) : Reachable cfg s → step s = .next t → Reachable cfg t

/-- R38: the run from `s` ends in `t`. -/
def EndsIn (s t : State) : Prop := ∃ limit, runFor limit s = .next t ∧ t.status ≠ .running

/-- R38: the run ends well. -/
def EndsWell (s : State) : Prop := ∃ t, EndsIn s t ∧ t.status = .halted

/-- The legal contents of a fault record that a raise has written (R35): which space goes with each
cause, and which values `info` can hold. -/
def FaultRecord.legal (f : FaultRecord) (cfg : Config) : Prop :=
  match f.cause, f.space with
  | .unknownOpcode, .fetch => 0x0F ≤ f.info.toNat ∧ f.info.toNat ≤ 0xFF
  | .outOfBounds, .fetch => cfg.memCap ≤ f.info.toNat
  | .outOfBounds, .data => cfg.memCap ≤ f.info.toNat ∧ f.info.toNat ≤ 0xFF
  | .outOfBounds, .register => cfg.numDregs ≤ f.info.toNat ∧ f.info.toNat ≤ 0xFF
  | .divisionByZero, .none => f.info = 0
  | .unsupportedAddressingMode, .none => f.info.toNat ≤ 0xFF
  | _, _ => False

/-- The invariant of the machine: memory is canonical and inside the address space (R43, R45), there
are `NUM_DREGS` registers (R16), carry and overflow are 0 (R25), the fault record is clear until a
fault (R35) and then legal, and it names the pc, which the faulting step left in place (R37). -/
structure State.Inv (s : State) : Prop where
  mem_canonical : Memory.wf s.mem = true
  mem_inside : ∀ cell ∈ s.mem, cell.1 < s.cfg.memCap
  dregs_count : s.dregs.length = s.cfg.numDregs
  carry_clear : s.flags.c = false
  overflow_clear : s.flags.v = false
  fault_clear : s.status ≠ .faulted → s.fault = FaultRecord.clear
  fault_set : s.status = .faulted → s.fault.pc = s.pc ∧ s.fault.legal s.cfg

/-! ### What a step keeps -/

/-- Every data register reads as before. -/
def KeepsDregs (s t : State) : Prop := ∀ i, t.readDreg i = s.readDreg i

/-- Every data register but `d<i>` reads as before. -/
def KeepsOtherDregs (i : Nat) (s t : State) : Prop := ∀ j, j ≠ i → t.readDreg j = s.readDreg j

/-- Every byte of memory reads as before. -/
def KeepsMem (s t : State) : Prop := ∀ a, t.readMem a = s.readMem a

/-- Every byte of memory but the one at `a` reads as before. -/
def KeepsOtherMem (a : Nat) (s t : State) : Prop := ∀ b, b ≠ a → t.readMem b = s.readMem b

/-- The execution state, the fault record and the parameters are as before. -/
def KeepsControl (s t : State) : Prop := t.status = s.status ∧ t.fault = s.fault ∧ t.cfg = s.cfg

/-- R37, R114: `t` is `s` after a fault: status and fault record written, every other piece of state
(flags, pc, registers, memory, parameters) as before. -/
def Faulted (s t : State) (cause : FaultCause) (space : FaultSpace) (info : Nat) : Prop :=
  t.status = .faulted ∧
  t.fault.cause = cause ∧ t.fault.pc = s.pc ∧ t.fault.space = space ∧
  t.fault.info = BitVec.ofNat 16 info ∧
  t.flags = s.flags ∧ t.pc = s.pc ∧ t.cfg = s.cfg ∧ KeepsDregs s t ∧ KeepsMem s t

/-- R33, R36: what holds of `t` when `t` is the state after an instruction of `length` bytes that did not
branch: pc has moved past it, and neither the execution state, the fault record nor the parameters
changed. -/
def Advanced (s t : State) (length : Nat) : Prop :=
  t.pc = s.pc + BitVec.ofNat 16 length ∧ KeepsControl s t

/-- Data register `d<i>` reads `r`; every other register and all of memory read as before. -/
def RegisterWritten (s t : State) (i : Nat) (r : Byte) : Prop :=
  t.readDreg i = r ∧ KeepsOtherDregs i s t ∧ KeepsMem s t

/-- The byte at `a` reads `r`; every other byte of memory and all registers read as before. -/
def CellWritten (s t : State) (a : Nat) (r : Byte) : Prop :=
  t.readMem a = r ∧ KeepsOtherMem a s t ∧ KeepsDregs s t

/-- No register and no byte of memory changed. -/
def NothingWritten (s t : State) : Prop := KeepsDregs s t ∧ KeepsMem s t

/-- R24, the rows of `move.b`, the arithmetic instructions and `cmp.b`. -/
def FlagsOfResult (t : State) (r dest src : Byte) : Prop :=
  t.flags = { n := r.getLsbD 7, z := decide (r = 0x00), c := false, v := false, e := decide (dest = src) }

/-- R24, the row of `inc` and `dec`: E is that of `s`. -/
def FlagsOfStep (s t : State) (r : Byte) : Prop :=
  t.flags = { n := r.getLsbD 7, z := decide (r = 0x00), c := false, v := false, e := s.flags.e }

/-- A running machine whose next instruction has the given opcode byte (R71). -/
def OpcodeAt (s : State) (opcode : Byte) : Prop :=
  s.status = .running ∧ s.pc.toNat < s.cfg.memCap ∧ s.readMem s.pc.toNat = opcode

/-- Byte `k` of the instruction at pc (R11). -/
def byteAt (s : State) (k : Nat) : Byte := s.readMem (s.pc.toNat + k)

/-- The value of a source operand given by its tag and value byte, for the admitted tags 0x00 (data
register) and 0x03 (immediate) (R69, R74). -/
def sourceByte (s : State) (tag value : Byte) : Byte :=
  if tag = 0x00 then s.readDreg value.toNat else value

/-- R68, R69, R73, R74: `src` is an admitted source operand (a data register that exists, or an
immediate), and `a` is its value. -/
def SourceValue (s : State) (src : Operand) (a : Byte) : Prop :=
  match src with
  | .dreg index => index.toNat < s.cfg.numDregs ∧ a = s.readDreg index.toNat
  | .imm value => a = value
  | .areg _ => False
  | .mem _ => False
  | .unassigned _ _ => False

end Sys2Proof.Machine
end

