-- ==== Sys2Proof/Certificates/Slice0/Obligations.lean ====
section
/-! DEFINITION. The statements for the provers, in the order of OBLIGATIONS.json. -/

open Sys2Proof Sys2Proof.Machine

/-! ### Reset and load -/

/-- R20, R22, R32, R35, R42 at `State.reset`. That the image is empty and `START` is 0 is the model's
choice (assumption log 2). -/
def Obligations.ResetLeavesEveryPieceAtItsResetValue : Prop :=
  (∀ i, i < State.reset.cfg.numDregs → State.reset.readDreg i = 0x00) ∧
  (∀ a, a < State.reset.cfg.memCap → State.reset.readMem a = 0x00) ∧
  State.reset.flags = { n := false, z := false, c := false, v := false, e := false } ∧
  State.reset.pc = 0 ∧ State.reset.status = .running ∧
  State.reset.fault = { cause := .none, pc := 0, space := .none, info := 0 } ∧
  State.reset.cfg.memCap = 256 ∧ State.reset.cfg.numDregs = 8

/-- R124, whole: the load, the refusal of an image that does not fit, and the fault of a `START` outside
memory at the first step. -/
def Obligations.LoadConstructsTheCoreOrIsRefused : Prop :=
  ∀ (s : State) (image : List Byte) (start : PcWord),
    (image.length ≤ s.cfg.memCap →
      ∃ t, s.load image start = .next t ∧
        (∀ a, a < s.cfg.memCap → t.readMem a = if h : a < image.length then image[a] else 0x00) ∧
        t.dregs = List.replicate s.cfg.numDregs 0x00 ∧
        t.flags = { n := false, z := false, c := false, v := false, e := false } ∧
        t.pc = start ∧ t.status = .running ∧
        t.fault = { cause := .none, pc := 0, space := .none, info := 0 } ∧ t.cfg = s.cfg ∧
        (s.cfg.memCap ≤ start.toNat →
          ∃ u, step t = .next u ∧ Faulted t u .outOfBounds .fetch start.toNat)) ∧
    (s.cfg.memCap < image.length → s.load image start = .refused (.imageTooLong image.length))

/-! ### Encoding -/

/-- R77 for instructions as terms: decoding the encoding of a well-formed instruction gives it back. -/
def Obligations.DecodeInvertsEncode : Prop :=
  ∀ (i : Instr) (rest : List Byte), i.wellFormed = true → decode (encode i ++ rest) = .ok (i, rest)

/-- R76, R77: whatever bytes decode to an instruction are its encoding, followed by the rest, and the
instruction is well-formed. -/
def Obligations.DecodedBytesAreTheEncoding : Prop :=
  ∀ (bytes : List Byte) (i : Instr) (rest : List Byte), decode bytes = .ok (i, rest) →
    i.wellFormed = true ∧ bytes = encode i ++ rest

/-- "Encoding and decoding are exact inverses" (the spec marks R77 as derived from R62), for bytes: for
every opcode of the map and every value of every field byte, the bytes decode to an instruction of that
opcode whose encoding is those same bytes. -/
def Obligations.EveryFieldByteSurvivesDecoding : Prop :=
  ∀ (op : Op) (fields rest : List Byte), fields.length + 1 = op.length →
    ∃ i, i.op = op ∧ decode (op.code :: (fields ++ rest)) = .ok (i, rest) ∧ encode i = op.code :: fields

/-- R66, R67: the kind each tag byte names. -/
def Obligations.TagByteNamesTheOperandKind : Prop :=
  (∀ v, operandOf 0x00 v = .dreg v) ∧ (∀ v, operandOf 0x01 v = .areg v) ∧
  (∀ v, operandOf 0x02 v = .mem v) ∧ (∀ v, operandOf 0x03 v = .imm v) ∧
  (∀ tag v : Byte, 0x04 ≤ tag.toNat → operandOf tag v = .unassigned tag v)

/-- Words written out from R62, R64 and R66 decode to the instruction they stand for. -/
def Obligations.WordsOfTheSpecDecode : Prop :=
  decode [0x02, 0x03, 0x05, 0x00, 0x00] = .ok (.moveB (.imm 0x05) (.dreg 0x00), []) ∧
  decode [0x06, 0x00, 0x01, 0x00, 0x03] = .ok (.divB (.dreg 0x01) (.dreg 0x03), []) ∧
  decode [0x07, 0x02, 0x40, 0x01] = .ok (.inc (.mem 0x40), [0x01]) ∧
  decode [0x09, 0x03, 0x01, 0x03, 0x02] = .ok (.cmpB (.imm 0x01) (.imm 0x02), []) ∧
  decode [0x0D, 0x11] = .ok (.jeq 0x11, []) ∧
  decode [0x01, 0x00] = .ok (.halt, [0x00])

/-- R64, R65: the opcode map row by row (mnemonic, opcode, format, length, operand count), and no opcode
byte from 0x0F on is in it. -/
def Obligations.OpcodeMapIsTheTable : Prop :=
  Op.all.map (fun op => (op.mnemonic, op.code, op.format, op.length, op.operandCount)) =
    [("noop", 0x00, .N, 1, 0), ("halt", 0x01, .N, 1, 0), ("move.b", 0x02, .B, 5, 2),
     ("add.b", 0x03, .B, 5, 2), ("sub.b", 0x04, .B, 5, 2), ("mul.b", 0x05, .B, 5, 2),
     ("div.b", 0x06, .B, 5, 2), ("inc", 0x07, .U, 3, 1), ("dec", 0x08, .U, 3, 1),
     ("cmp.b", 0x09, .B, 5, 2), ("jmp", 0x0A, .J, 2, 1), ("jnz", 0x0B, .J, 2, 1),
     ("jng", 0x0C, .J, 2, 1), ("jeq", 0x0D, .J, 2, 1), ("jne", 0x0E, .J, 2, 1)] ∧
  ∀ b : Byte, lookupOpcode b = none ↔ 0x0F ≤ b.toNat

/-! ### Fetch and step -/

/-- R36, R71: when the bytes of a well-formed instruction lie at pc inside memory, a step of a running
machine is that instruction's execute phase. Nothing is added around it: `exec` itself moves pc. -/
def Obligations.StepRunsTheInstructionAtPc : Prop :=
  ∀ (s : State) (i : Instr), s.status = .running → i.wellFormed = true →
    (∀ k (h : k < (encode i).length),
      s.pc.toNat + k < s.cfg.memCap ∧ s.readMem (s.pc.toNat + k) = (encode i)[k]) →
    step s = exec i s

/-- R109, R65: an unassigned opcode byte faults, whatever follows it and whether or not anything does. -/
def Obligations.UnassignedOpcodeFaults : Prop :=
  ∀ (s : State) (opcode : Byte), OpcodeAt s opcode → 0x0F ≤ opcode.toNat →
    ∃ t, step s = .next t ∧ Faulted s t .unknownOpcode .fetch opcode.toNat

/-- R71, R113: a fetch at or beyond the end of memory faults at pc; an instruction that runs past the end
faults at the first address beyond it. -/
def Obligations.FetchOutsideMemoryFaults : Prop :=
  (∀ s : State, s.status = .running → s.cfg.memCap ≤ s.pc.toNat →
    ∃ t, step s = .next t ∧ Faulted s t .outOfBounds .fetch s.pc.toNat) ∧
  (∀ (s : State) (op : Op), OpcodeAt s op.code → s.cfg.memCap < s.pc.toNat + op.length →
    ∃ t, step s = .next t ∧ Faulted s t .outOfBounds .fetch s.cfg.memCap)

/-- R34: a step requested in a terminal state changes nothing, and no transition is enabled there. -/
def Obligations.TerminalStatesStay : Prop :=
  ∀ s : State, s.status = .halted ∨ s.status = .faulted →
    step s = .next s ∧ ∀ t, ¬ Transition s t

/-- R36, R76: every step of every state has a next state; no content of memory stops the model. That a
step requested in a terminal state answers that same state is the model's reading of R34 (assumption
log 3), and that a fault of the CORE is a next state is its reading of R37 (assumption log 4). -/
def Obligations.EveryStepHasANextState : Prop := ∀ s : State, ∃ t, step s = .next t

/-- R37: a step that ends in `Faulted` wrote the status and the fault record, whose pc is that of the
faulting instruction, and nothing else. -/
def Obligations.FaultsArePrecise : Prop :=
  ∀ s t : State, Transition s t → t.status = .faulted →
    ∃ cause space info, cause ≠ FaultCause.none ∧
      t = { s with
            status := .faulted
            fault := { cause := cause, pc := s.pc, space := space, info := info } }

/-- R108, R110, R111, R112: which instructions can raise each fault. -/
def Obligations.EachFaultComesFromItsInstructions : Prop :=
  ∀ s t : State, Transition s t → t.status = .faulted →
    (t.fault.cause = .unknownOpcode ∧ t.fault.space = .fetch ∧
      s.pc.toNat < s.cfg.memCap ∧ 0x0F ≤ (byteAt s 0).toNat) ∨
    (t.fault.cause = .outOfBounds ∧ t.fault.space = .fetch ∧
      (s.cfg.memCap ≤ s.pc.toNat ∨
        ∃ op : Op, OpcodeAt s op.code ∧ s.cfg.memCap < s.pc.toNat + op.length)) ∨
    (t.fault.cause = .outOfBounds ∧ t.fault.space = .register ∧
      0x02 ≤ (byteAt s 0).toNat ∧ (byteAt s 0).toNat ≤ 0x09) ∨
    (t.fault.cause = .outOfBounds ∧ t.fault.space = .data ∧
      (byteAt s 0 = 0x02 ∨ byteAt s 0 = 0x07 ∨ byteAt s 0 = 0x08)) ∨
    (t.fault.cause = .divisionByZero ∧ t.fault.space = .none ∧ byteAt s 0 = 0x06) ∨
    (t.fault.cause = .unsupportedAddressingMode ∧ t.fault.space = .none ∧
      0x02 ≤ (byteAt s 0).toNat ∧ (byteAt s 0).toNat ≤ 0x09)

/-- R33: what each transition of the execution state comes from. -/
def Obligations.ExecutionStateTransitions : Prop :=
  ∀ s t : State,
    (Transition s t →
      (t.status = .halted ↔ OpcodeAt s 0x01) ∧
      (t.status = .faulted ↔ ∃ r : Raise, r.cause ≠ .none ∧ t = s.raise r) ∧
      (t.status ≠ .faulted → t.fault = s.fault)) ∧
    (s.status ≠ .running → step s = .next t → t = s)

/-! ### Invariants -/

/-- The reset state satisfies the invariant. -/
def Obligations.ResetSatisfiesTheInvariant : Prop := State.reset.Inv

/-- Every step from every state keeps the invariant. -/
def Obligations.StepKeepsTheInvariant : Prop :=
  ∀ s t : State, s.Inv → step s = .next t → t.Inv

/-- R123: every load that is not refused establishes the invariant, whatever state it was requested in. -/
def Obligations.LoadEstablishesTheInvariant : Prop :=
  ∀ (s t : State) (image : List Byte) (start : PcWord), s.load image start = .next t → t.Inv

/-- "`C` and `V` are 0 in every reachable state" (R25, the spec's own inference from R22 and R24), for every
choice of the parameters. -/
def Obligations.CarryAndOverflowAreNeverSet : Prop :=
  ∀ (cfg : Config) (s : State), Reachable cfg s → s.flags.c = false ∧ s.flags.v = false

/-- R15: the parameters are configuration; no step changes them. That they stand in State is the
model's choice (assumption log 1). -/
def Obligations.StepsKeepTheParameters : Prop :=
  ∀ s t : State, step s = .next t → t.cfg = s.cfg

/-! ### The rules of the instructions, whole, at the level of the bytes in memory -/

/-- R88, whole. -/
def Obligations.MoveFollowsItsRule : Prop :=
  ∀ s : State, OpcodeAt s 0x02 → ∃ t, step s = .next t ∧
    let st := byteAt s 1
    let sv := byteAt s 2
    let dt := byteAt s 3
    let dv := byteAt s 4
    let v := sourceByte s st sv
    if s.cfg.memCap < s.pc.toNat + 5 then Faulted s t .outOfBounds .fetch s.cfg.memCap
    else if st ≠ 0x00 ∧ st ≠ 0x03 then Faulted s t .unsupportedAddressingMode .none st.toNat
    else if dt ≠ 0x00 ∧ dt ≠ 0x02 then Faulted s t .unsupportedAddressingMode .none dt.toNat
    else if st = 0x00 ∧ s.cfg.numDregs ≤ sv.toNat then Faulted s t .outOfBounds .register sv.toNat
    else if dt = 0x00 ∧ s.cfg.numDregs ≤ dv.toNat then Faulted s t .outOfBounds .register dv.toNat
    else if dt = 0x02 ∧ s.cfg.memCap ≤ dv.toNat then Faulted s t .outOfBounds .data dv.toNat
    else
      (if dt = 0x00 then
        RegisterWritten s t dv.toNat v ∧ FlagsOfResult t v (s.readDreg dv.toNat) v
      else
        CellWritten s t dv.toNat v ∧ FlagsOfResult t v (s.readMem dv.toNat) v) ∧
      Advanced s t 5

/-- R90, R91 and R92, whole. -/
def Obligations.AddSubMulFollowTheirRules : Prop :=
  ∀ (s : State) (opcode : Byte) (f : Int → Int → Int),
    (opcode = 0x03 ∧ f = (fun dest src => dest + src)) ∨
    (opcode = 0x04 ∧ f = (fun dest src => dest - src)) ∨
    (opcode = 0x05 ∧ f = (fun dest src => dest * src)) →
    OpcodeAt s opcode → ∃ t, step s = .next t ∧
      let st := byteAt s 1
      let sv := byteAt s 2
      let dt := byteAt s 3
      let dv := byteAt s 4
      let a := sourceByte s st sv
      let b := s.readDreg dv.toNat
      let r := BitVec.ofInt 8 (f b.toInt a.toInt)
      if s.cfg.memCap < s.pc.toNat + 5 then Faulted s t .outOfBounds .fetch s.cfg.memCap
      else if st ≠ 0x00 ∧ st ≠ 0x03 then Faulted s t .unsupportedAddressingMode .none st.toNat
      else if dt ≠ 0x00 then Faulted s t .unsupportedAddressingMode .none dt.toNat
      else if st = 0x00 ∧ s.cfg.numDregs ≤ sv.toNat then Faulted s t .outOfBounds .register sv.toNat
      else if s.cfg.numDregs ≤ dv.toNat then Faulted s t .outOfBounds .register dv.toNat
      else RegisterWritten s t dv.toNat r ∧ FlagsOfResult t r b a ∧ Advanced s t 5

/-- The rule R93, where the parameter `DIV_ROUND` is `trunc`. Where it is `floor` the quotient is rounded
down: that clause is the model's choice (assumption log 14), which exposes the optional variation of
R10; every rule of the spec uses `trunc`. -/
def Obligations.DivFollowsItsRule : Prop :=
  ∀ s : State, OpcodeAt s 0x06 → ∃ t, step s = .next t ∧
    let st := byteAt s 1
    let sv := byteAt s 2
    let dt := byteAt s 3
    let dv := byteAt s 4
    let a := sourceByte s st sv
    let b := s.readDreg dv.toNat
    let q := if s.cfg.divRound = .trunc then b.toInt.tdiv a.toInt else b.toInt.fdiv a.toInt
    let r := BitVec.ofInt 8 q
    if s.cfg.memCap < s.pc.toNat + 5 then Faulted s t .outOfBounds .fetch s.cfg.memCap
    else if st ≠ 0x00 ∧ st ≠ 0x03 then Faulted s t .unsupportedAddressingMode .none st.toNat
    else if dt ≠ 0x00 then Faulted s t .unsupportedAddressingMode .none dt.toNat
    else if st = 0x00 ∧ s.cfg.numDregs ≤ sv.toNat then Faulted s t .outOfBounds .register sv.toNat
    else if s.cfg.numDregs ≤ dv.toNat then Faulted s t .outOfBounds .register dv.toNat
    else if a = 0x00 then Faulted s t .divisionByZero .none 0
    else RegisterWritten s t dv.toNat r ∧ FlagsOfResult t r b a ∧ Advanced s t 5

/-- R95 and R96, whole. -/
def Obligations.IncDecFollowTheirRules : Prop :=
  ∀ (s : State) (opcode : Byte) (delta : Int),
    (opcode = 0x07 ∧ delta = 1) ∨ (opcode = 0x08 ∧ delta = -1) →
    OpcodeAt s opcode → ∃ t, step s = .next t ∧
      let dt := byteAt s 1
      let dv := byteAt s 2
      let next := fun old : Byte => BitVec.ofInt 8 ((old.toNat : Int) + delta)
      if s.cfg.memCap < s.pc.toNat + 3 then Faulted s t .outOfBounds .fetch s.cfg.memCap
      else if dt ≠ 0x00 ∧ dt ≠ 0x02 ∧ dt ≠ 0x03 then
        Faulted s t .unsupportedAddressingMode .none dt.toNat
      else if dt = 0x00 ∧ s.cfg.numDregs ≤ dv.toNat then Faulted s t .outOfBounds .register dv.toNat
      else if dt = 0x02 ∧ s.cfg.memCap ≤ dv.toNat then Faulted s t .outOfBounds .data dv.toNat
      else
        (if dt = 0x00 then
          RegisterWritten s t dv.toNat (next (s.readDreg dv.toNat)) ∧
          FlagsOfStep s t (next (s.readDreg dv.toNat))
        else if dt = 0x02 then
          CellWritten s t dv.toNat (next (s.readMem dv.toNat)) ∧
          FlagsOfStep s t (next (s.readMem dv.toNat))
        else NothingWritten s t ∧ FlagsOfStep s t (next dv)) ∧
        Advanced s t 3

/-- R97, whole. -/
def Obligations.CompareFollowsItsRule : Prop :=
  ∀ s : State, OpcodeAt s 0x09 → ∃ t, step s = .next t ∧
    let st := byteAt s 1
    let sv := byteAt s 2
    let dt := byteAt s 3
    let dv := byteAt s 4
    let a := sourceByte s st sv
    let b := sourceByte s dt dv
    let d := BitVec.ofInt 8 (b.toInt - a.toInt)
    if s.cfg.memCap < s.pc.toNat + 5 then Faulted s t .outOfBounds .fetch s.cfg.memCap
    else if st ≠ 0x00 ∧ st ≠ 0x03 then Faulted s t .unsupportedAddressingMode .none st.toNat
    else if dt ≠ 0x00 ∧ dt ≠ 0x03 then Faulted s t .unsupportedAddressingMode .none dt.toNat
    else if st = 0x00 ∧ s.cfg.numDregs ≤ sv.toNat then Faulted s t .outOfBounds .register sv.toNat
    else if dt = 0x00 ∧ s.cfg.numDregs ≤ dv.toNat then Faulted s t .outOfBounds .register dv.toNat
    else NothingWritten s t ∧ FlagsOfResult t d b a ∧ Advanced s t 5

/-- "After `sub.b`, `Z = E` always" and "After `cmp.b`, `Z = E` always": sentences R91 and R97 mark as the
spec's own inference. -/
def Obligations.SubAndCompareLeaveZEqualToE : Prop :=
  ∀ s t : State, OpcodeAt s 0x04 ∨ OpcodeAt s 0x09 → step s = .next t → t.status ≠ .faulted →
    t.flags.z = t.flags.e

/-- R100 to R104, whole: the condition of each branch, its two ways on, its frame, and the fault of a
target outside memory at the next fetch. -/
def Obligations.BranchesFollowTheirRules : Prop :=
  ∀ (s : State) (opcode : Byte) (taken : Bool),
    (opcode = 0x0A ∧ taken = true) ∨ (opcode = 0x0B ∧ taken = s.flags.z) ∨
    (opcode = 0x0C ∧ taken = s.flags.n) ∨ (opcode = 0x0D ∧ taken = s.flags.e) ∨
    (opcode = 0x0E ∧ taken = !s.flags.e) →
    OpcodeAt s opcode → ∃ t, step s = .next t ∧
      let target := byteAt s 1
      if s.cfg.memCap < s.pc.toNat + 2 then Faulted s t .outOfBounds .fetch (s.pc.toNat + 1)
      else
        t.pc.toNat = (if taken then target.toNat else s.pc.toNat + 2) ∧
        NothingWritten s t ∧ t.flags = s.flags ∧ KeepsControl s t ∧
        (taken = true → s.cfg.memCap ≤ target.toNat →
          ∃ u, step t = .next u ∧ Faulted t u .outOfBounds .fetch target.toNat)

/-- R107, whole, and the execute phase of R106. -/
def Obligations.NoopAndHaltFollowTheirRules : Prop :=
  ∀ s : State,
    (OpcodeAt s 0x00 → ∃ t, step s = .next t ∧
      NothingWritten s t ∧ t.flags = s.flags ∧ Advanced s t 1) ∧
    (OpcodeAt s 0x01 → ∃ t, step s = .next t ∧ t.status = .halted ∧ t.pc = s.pc + 1 ∧
      NothingWritten s t ∧ t.flags = s.flags ∧ t.fault = s.fault ∧ t.cfg = s.cfg ∧
      step t = .next t)

/-! ### Where each instruction completes, and with what -/

/-- R88 for a register destination. -/
def Obligations.MoveToRegisterCompletes : Prop :=
  ∀ (s : State) (src : Operand) (v index : Byte),
    SourceValue s src v → index.toNat < s.cfg.numDregs →
    ∃ t, exec (.moveB src (.dreg index)) s = .next t ∧
      RegisterWritten s t index.toNat v ∧
      FlagsOfResult t v (s.readDreg index.toNat) v ∧ Advanced s t 5

/-- R88 for a memory destination: the byte stored to is the one at the operand's address. -/
def Obligations.MoveToMemoryCompletes : Prop :=
  ∀ (s : State) (src : Operand) (v address : Byte),
    SourceValue s src v → address.toNat < s.cfg.memCap →
    ∃ t, exec (.moveB src (.mem address)) s = .next t ∧
      CellWritten s t address.toNat v ∧
      FlagsOfResult t v (s.readMem address.toNat) v ∧ Advanced s t 5

/-- R90. -/
def Obligations.AddCompletes : Prop :=
  ∀ (s : State) (src : Operand) (a index : Byte),
    SourceValue s src a → index.toNat < s.cfg.numDregs →
    ∃ t, exec (.addB src (.dreg index)) s = .next t ∧
      let b := s.readDreg index.toNat
      let r := BitVec.ofInt 8 (b.toInt + a.toInt)
      RegisterWritten s t index.toNat r ∧ FlagsOfResult t r b a ∧ Advanced s t 5

/-- R91. -/
def Obligations.SubCompletes : Prop :=
  ∀ (s : State) (src : Operand) (a index : Byte),
    SourceValue s src a → index.toNat < s.cfg.numDregs →
    ∃ t, exec (.subB src (.dreg index)) s = .next t ∧
      let b := s.readDreg index.toNat
      let r := BitVec.ofInt 8 (b.toInt - a.toInt)
      RegisterWritten s t index.toNat r ∧ FlagsOfResult t r b a ∧ Advanced s t 5

/-- R92. -/
def Obligations.MulCompletes : Prop :=
  ∀ (s : State) (src : Operand) (a index : Byte),
    SourceValue s src a → index.toNat < s.cfg.numDregs →
    ∃ t, exec (.mulB src (.dreg index)) s = .next t ∧
      let b := s.readDreg index.toNat
      let r := BitVec.ofInt 8 (b.toInt * a.toInt)
      RegisterWritten s t index.toNat r ∧ FlagsOfResult t r b a ∧ Advanced s t 5

/-- R93 for a divisor that is not zero; the `floor` rounding is the model's choice (R10, assumption
log 14). -/
def Obligations.DivCompletes : Prop :=
  ∀ (s : State) (src : Operand) (a index : Byte),
    SourceValue s src a → index.toNat < s.cfg.numDregs → a ≠ 0x00 →
    ∃ t, exec (.divB src (.dreg index)) s = .next t ∧
      let b := s.readDreg index.toNat
      let q := if s.cfg.divRound = .trunc then b.toInt.tdiv a.toInt else b.toInt.fdiv a.toInt
      let r := BitVec.ofInt 8 q
      RegisterWritten s t index.toNat r ∧ FlagsOfResult t r b a ∧ Advanced s t 5

/-- The table of R94 (the spec's own inference from R93) for a destination `d0`; the last row is the zero
divisor. -/
def Obligations.DivisionTableOfTheSpec : Prop :=
  ∀ s : State, s.cfg.divRound = .trunc →
    (∀ row ∈ ([(0x07, 0x02, 0x03, false, false), (0xF9, 0x02, 0xFD, true, false),
        (0x07, 0xFE, 0xFD, true, false), (0xF9, 0xFE, 0x03, false, false),
        (0x01, 0x02, 0x00, false, true), (0xFF, 0x02, 0x00, false, true),
        (0x00, 0x05, 0x00, false, true), (0x7F, 0xFF, 0x81, true, false),
        (0x80, 0x01, 0x80, true, false), (0x80, 0xFF, 0x80, true, false),
        (0x2A, 0xFC, 0xF6, true, false)] : List (Byte × Byte × Byte × Bool × Bool)),
      s.readDreg 0 = row.1 →
      ∃ t, exec (.divB (.imm row.2.1) (.dreg 0x00)) s = .next t ∧
        t.readDreg 0 = row.2.2.1 ∧ t.flags.n = row.2.2.2.1 ∧ t.flags.z = row.2.2.2.2) ∧
    ∃ t, exec (.divB (.imm 0x00) (.dreg 0x00)) s = .next t ∧ Faulted s t .divisionByZero .none 0

/-- R95 on each of its three operand kinds. -/
def Obligations.IncCompletes : Prop :=
  ∀ (s : State) (v : Byte),
    let next := fun old : Byte => BitVec.ofInt 8 ((old.toNat : Int) + 1)
    (v.toNat < s.cfg.numDregs → ∃ t, exec (.inc (.dreg v)) s = .next t ∧
      RegisterWritten s t v.toNat (next (s.readDreg v.toNat)) ∧
      FlagsOfStep s t (next (s.readDreg v.toNat)) ∧ Advanced s t 3) ∧
    (v.toNat < s.cfg.memCap → ∃ t, exec (.inc (.mem v)) s = .next t ∧
      CellWritten s t v.toNat (next (s.readMem v.toNat)) ∧
      FlagsOfStep s t (next (s.readMem v.toNat)) ∧ Advanced s t 3) ∧
    ∃ t, exec (.inc (.imm v)) s = .next t ∧
      NothingWritten s t ∧ FlagsOfStep s t (next v) ∧ Advanced s t 3

/-- R96 on each of its three operand kinds. -/
def Obligations.DecCompletes : Prop :=
  ∀ (s : State) (v : Byte),
    let next := fun old : Byte => BitVec.ofInt 8 ((old.toNat : Int) - 1)
    (v.toNat < s.cfg.numDregs → ∃ t, exec (.dec (.dreg v)) s = .next t ∧
      RegisterWritten s t v.toNat (next (s.readDreg v.toNat)) ∧
      FlagsOfStep s t (next (s.readDreg v.toNat)) ∧ Advanced s t 3) ∧
    (v.toNat < s.cfg.memCap → ∃ t, exec (.dec (.mem v)) s = .next t ∧
      CellWritten s t v.toNat (next (s.readMem v.toNat)) ∧
      FlagsOfStep s t (next (s.readMem v.toNat)) ∧ Advanced s t 3) ∧
    ∃ t, exec (.dec (.imm v)) s = .next t ∧
      NothingWritten s t ∧ FlagsOfStep s t (next v) ∧ Advanced s t 3

/-- R97: each slot admits a data register or an immediate. -/
def Obligations.CompareCompletes : Prop :=
  ∀ (s : State) (src dest : Operand) (a b : Byte), SourceValue s src a → SourceValue s dest b →
    ∃ t, exec (.cmpB src dest) s = .next t ∧
      NothingWritten s t ∧ FlagsOfResult t (BitVec.ofInt 8 (b.toInt - a.toInt)) b a ∧ Advanced s t 5

/-- "What the flags tell after `cmp.b src, dest`" (R98, the spec's own inference from R97 and R25), its
example (100 against -100), and that no flag gives unsigned order: comparing 1 with 0 and 0 with 255
leaves the same flags. -/
def Obligations.CompareFlagsTellTheOrder : Prop :=
  (∀ (s : State) (src dest : Operand) (a b : Byte), SourceValue s src a → SourceValue s dest b →
    ∃ t, exec (.cmpB src dest) s = .next t ∧
      (t.flags.e = true ↔ b = a) ∧ (t.flags.z = true ↔ b = a) ∧
      (-128 ≤ b.toInt - a.toInt ∧ b.toInt - a.toInt ≤ 127 →
        (t.flags.n = true ↔ b.toInt < a.toInt)) ∧
      (¬ (-128 ≤ b.toInt - a.toInt ∧ b.toInt - a.toInt ≤ 127) →
        (t.flags.n = true ↔ ¬ b.toInt < a.toInt)) ∧
      t.flags.c = false ∧ t.flags.v = false) ∧
  (∀ s : State, ∃ t, exec (.cmpB (.imm 0x9C) (.imm 0x64)) s = .next t ∧ t.flags.n = true) ∧
  ∀ s : State, ∃ t u, exec (.cmpB (.imm 0x00) (.imm 0x01)) s = .next t ∧
    exec (.cmpB (.imm 0xFF) (.imm 0x00)) s = .next u ∧ t.flags = u.flags

/-- R100 to R104: where each branch goes, by its flag. -/
def Obligations.BranchesComplete : Prop :=
  ∀ (s : State) (target : Byte),
    let goes := fun (t : State) (taken : Bool) =>
      t.pc = (if taken then BitVec.setWidth 16 target else s.pc + 2) ∧
      NothingWritten s t ∧ t.flags = s.flags ∧ KeepsControl s t
    (∃ t, exec (.jmp target) s = .next t ∧ goes t true) ∧
    (∃ t, exec (.jnz target) s = .next t ∧ goes t s.flags.z) ∧
    (∃ t, exec (.jng target) s = .next t ∧ goes t s.flags.n) ∧
    (∃ t, exec (.jeq target) s = .next t ∧ goes t s.flags.e) ∧
    (∃ t, exec (.jne target) s = .next t ∧ goes t (!s.flags.e))

/-- R106, R107. -/
def Obligations.NoopAndHaltComplete : Prop :=
  ∀ s : State,
    (∃ t, exec .noop s = .next t ∧ NothingWritten s t ∧ t.flags = s.flags ∧ Advanced s t 1) ∧
    (∃ t, exec .halt s = .next t ∧ NothingWritten s t ∧ t.flags = s.flags ∧
      t.pc = s.pc + 1 ∧ t.status = .halted ∧ t.fault = s.fault ∧ t.cfg = s.cfg)

/-! ### Rules about the whole machine -/

/-- R47: only `move.b`, `inc` and `dec` with a memory-cell destination change memory, and they change
only the cell their destination names. -/
def Obligations.OnlyMemoryDestinationsChangeMemory : Prop :=
  ∀ (s t : State) (a : Nat), Transition s t → t.readMem a ≠ s.readMem a →
    (OpcodeAt s 0x02 ∧ byteAt s 3 = 0x02 ∧ a = (byteAt s 4).toNat) ∨
    ((OpcodeAt s 0x07 ∨ OpcodeAt s 0x08) ∧ byteAt s 1 = 0x02 ∧ a = (byteAt s 2).toNat)

/-- R18: only `move.b`, the arithmetic instructions, `inc` and `dec` change a data register, and they
change only the one their destination names. -/
def Obligations.OnlyRegisterDestinationsChangeRegisters : Prop :=
  ∀ (s t : State) (i : Nat), Transition s t → t.readDreg i ≠ s.readDreg i →
    (0x02 ≤ (byteAt s 0).toNat ∧ (byteAt s 0).toNat ≤ 0x06 ∧
      byteAt s 3 = 0x00 ∧ i = (byteAt s 4).toNat) ∨
    ((byteAt s 0 = 0x07 ∨ byteAt s 0 = 0x08) ∧ byteAt s 1 = 0x00 ∧ i = (byteAt s 2).toNat)

/-- R23, R24: a step that changes the flags did not fault (R23: "A faulting step writes no flag"), ran an
instruction of opcodes 0x02 to 0x09 and left carry and overflow 0; `inc` and `dec` leave E as it was. -/
def Obligations.OnlyDataInstructionsChangeFlags : Prop :=
  ∀ s t : State, Transition s t → t.flags ≠ s.flags →
    t.status ≠ .faulted ∧
    0x02 ≤ (byteAt s 0).toNat ∧ (byteAt s 0).toNat ≤ 0x09 ∧
    t.flags.c = false ∧ t.flags.v = false ∧
    (byteAt s 0 = 0x07 ∨ byteAt s 0 = 0x08 → t.flags.e = s.flags.e)

/-- R29, and "`pc` never wraps around" (R30, the spec's own inference): a step that does not fault moves
pc past its instruction, which lies inside memory, without wrapping around, or, for a branch, to the
target byte. -/
def Obligations.PcAdvancesWithoutWrapping : Prop :=
  ∀ s t : State, Transition s t → t.status ≠ .faulted →
    ∃ op : Op, OpcodeAt s op.code ∧ s.pc.toNat + op.length ≤ s.cfg.memCap ∧
      (t.pc.toNat = s.pc.toNat + op.length ∨
        (op.format = .J ∧ t.pc.toNat = (byteAt s 1).toNat))

/-- "a write to the executing instruction's own bytes takes effect from the next fetch of those bytes"
(R58, the spec's own inference from R54 and R55): a `move.b` that overwrites its own opcode completes as a
`move.b`, and a later fetch at that address runs what was written. -/
def Obligations.OverwrittenOpcodeTakesEffectAtTheNextFetch : Prop :=
  ∀ (s : State) (v : Byte), OpcodeAt s 0x02 → s.pc.toNat + 5 ≤ s.cfg.memCap →
    byteAt s 1 = 0x03 → byteAt s 2 = v → byteAt s 3 = 0x02 → (byteAt s 4).toNat = s.pc.toNat →
    ∃ t, step s = .next t ∧ t.status = .running ∧ t.pc = s.pc + 5 ∧
      OpcodeAt { t with pc := s.pc } v

/-- R38, R39: a run that has ended stays ended with the same state, however many more steps are
requested, so a run ends in at most one state. The bound on the number of steps is the model's
(assumption log 12). -/
def Obligations.RunEndsInAtMostOneState : Prop :=
  (∀ (limit more : Nat) (s t : State), runFor limit s = .next t → t.status ≠ .running →
    runFor (limit + more) s = .next t) ∧
  ∀ s t u : State, EndsIn s t → EndsIn s u → t = u

/-- R38, R100: a jump to its own address runs for ever: no number of steps ends the run. The bound on
the number of steps is the model's (assumption log 12). -/
def Obligations.JumpToItselfNeverEnds : Prop :=
  ∀ s : State, OpcodeAt s 0x0A → s.pc.toNat + 2 ≤ s.cfg.memCap →
    (byteAt s 1).toNat = s.pc.toNat → ∀ limit, runFor limit s = .next s

/-- R106, R125: from a pc inside memory, or at its end, after which every cell is zero, the run executes
`noop`s up to the end of memory and ends in `Faulted` with `OutOfBounds(FETCH, MEM_CAP)`. That a run ends
is `EndsIn`, by the model's bound on the number of steps (assumption log 12). -/
def Obligations.ZeroedMemoryRunsOffTheEnd : Prop :=
  ∀ s : State, s.status = .running → s.pc.toNat ≤ s.cfg.memCap →
    (∀ a, s.pc.toNat ≤ a → a < s.cfg.memCap → s.readMem a = 0x00) →
    ∃ t, EndsIn s t ∧ t.status = .faulted ∧
      t.fault.cause = .outOfBounds ∧ t.fault.space = .fetch ∧
      t.fault.info.toNat = s.cfg.memCap ∧ t.fault.pc.toNat = s.cfg.memCap ∧
      KeepsDregs s t ∧ KeepsMem s t ∧ t.flags = s.flags

/-- R126, R129, R32, R35: what `Inspect` returns. -/
def Obligations.InspectReturnsTheState : Prop :=
  ∀ s : State,
    s.inspect.dregs.length = s.cfg.numDregs ∧
    (∀ i, i < s.cfg.numDregs → s.inspect.dregs[i]? = some (s.readDreg i)) ∧
    s.inspect.mem.length = s.cfg.memCap ∧
    (∀ a, a < s.cfg.memCap → s.inspect.mem[a]? = some (s.readMem a)) ∧
    (s.inspect.n, s.inspect.z, s.inspect.c, s.inspect.v, s.inspect.e) =
      (s.flags.n, s.flags.z, s.flags.c, s.flags.v, s.flags.e) ∧
    s.inspect.pc = s.pc ∧
    s.inspect.state =
      (match s.status with | .running => 0 | .halted => 1 | .faulted => 2) ∧
    s.inspect.faultCause =
      (match s.fault.cause with
        | .none => 0
        | .unknownOpcode => 1
        | .outOfBounds => 2
        | .divisionByZero => 3
        | .unsupportedAddressingMode => 4) ∧
    s.inspect.faultPc = s.fault.pc ∧
    s.inspect.faultSpace =
      (match s.fault.space with | .none => 0 | .fetch => 1 | .data => 2 | .register => 3) ∧
    s.inspect.faultInfo = s.fault.info

/-- R41: there is no hidden state. Two machines with the same parameters that the host cannot tell apart
by inspection step to states it cannot tell apart either. -/
def Obligations.StepDependsOnlyOnWhatInspectShows : Prop :=
  ∀ s s' t t' : State, s.cfg = s'.cfg → s.inspect = s'.inspect →
    step s = .next t → step s' = .next t' → t.inspect = t'.inspect

/-- The canonical form of memory is the model's (assumption log 8), and it is canonical: two memories in
that form that read the same at every address are equal data. -/
def Obligations.CanonicalMemoriesThatReadAlikeAreEqual : Prop :=
  ∀ m m' : Memory, Memory.wf m = true → Memory.wf m' = true →
    (∀ a, Memory.lookup m a = Memory.lookup m' a) → m = m'
end

