-- ==== Sys2Proof/Laws/Decode.lean ====
section
/-! SUPPORT. The small lemmas of the decoder's tables: opcodes, tags and lengths (30_encoding.md R62 to
R67). -/

namespace Sys2Proof

/-- R64: every row's opcode byte selects that row. -/
@[simp] theorem lookupOpcode_code (op : Op) : lookupOpcode op.code = some op := by
  cases op <;> rfl

/-- R64: a byte that selects a row is that row's opcode byte. -/
theorem lookupOpcode_eq_some {b : Byte} {op : Op} (h : lookupOpcode b = some op) : b = op.code := by
  have := List.find?_some h
  simpa using (beq_iff_eq.1 this).symm

/-- R66, R67: an operand's tag and value byte give the operand back, when it is well-formed. -/
theorem operandOf_tag_valueByte (o : Operand) (h : o.wellFormed = true) :
    operandOf o.tag o.valueByte = o := by
  cases o with
  | dreg v => simp [operandOf, Operand.tag, Operand.valueByte]
  | areg v => simp [operandOf, Operand.tag, Operand.valueByte]
  | mem v => simp [operandOf, Operand.tag, Operand.valueByte]
  | imm v => simp [operandOf, Operand.tag, Operand.valueByte]
  | unassigned tag v =>
    simp only [Operand.wellFormed, decide_eq_true_eq] at h
    have hne : ∀ c : Byte, c.toNat < 4 → tag ≠ c := fun c hc he => by subst he; omega
    simp [operandOf, Operand.tag, Operand.valueByte, hne 0#8 (by decide), hne 1#8 (by decide),
      hne 2#8 (by decide), hne 3#8 (by decide)]

/-- R66, R67: the operand that a tag and a value byte stand for is well-formed and has those bytes. -/
theorem operandOf_spec (tag v : Byte) :
    (operandOf tag v).wellFormed = true ∧ (operandOf tag v).tag = tag ∧
      (operandOf tag v).valueByte = v := by
  unfold operandOf
  split_ifs with h0 h1 h2 h3
  · exact ⟨rfl, h0.symm, rfl⟩
  · exact ⟨rfl, h1.symm, rfl⟩
  · exact ⟨rfl, h2.symm, rfl⟩
  · exact ⟨rfl, h3.symm, rfl⟩
  · refine ⟨?_, rfl, rfl⟩
    simp only [Operand.wellFormed, decide_eq_true_eq]
    by_contra hlt
    have h4 : tag.toNat = 0 ∨ tag.toNat = 1 ∨ tag.toNat = 2 ∨ tag.toNat = 3 := by omega
    rcases h4 with h | h | h | h
    · exact h0 (BitVec.eq_of_toNat_eq h)
    · exact h1 (BitVec.eq_of_toNat_eq h)
    · exact h2 (BitVec.eq_of_toNat_eq h)
    · exact h3 (BitVec.eq_of_toNat_eq h)

/-- R61: no instruction is longer than five bytes, and none is empty. -/
theorem Op.length_bounds (op : Op) : 1 ≤ op.length ∧ op.length ≤ maxLength := by
  cases op <;> decide

end Sys2Proof
end

