-- ==== Sys2Proof/Laws/State.lean ====
section
/-! SUPPORT. One lemma per field per update of State and of Flags, and what the reads see of each
update. -/

namespace Sys2Proof.Machine

/-! ### `State.writeMem` -/

@[simp] theorem State.writeMem_cfg (s : State) (a : Nat) (v : Byte) :
    (s.writeMem a v).cfg =
      s.cfg := rfl
@[simp] theorem State.writeMem_mem (s : State) (a : Nat) (v : Byte) :
    (s.writeMem a v).mem =
      Memory.store s.mem a v := rfl
@[simp] theorem State.writeMem_dregs (s : State) (a : Nat) (v : Byte) :
    (s.writeMem a v).dregs =
      s.dregs := rfl
@[simp] theorem State.writeMem_flags (s : State) (a : Nat) (v : Byte) :
    (s.writeMem a v).flags =
      s.flags := rfl
@[simp] theorem State.writeMem_pc (s : State) (a : Nat) (v : Byte) : (s.writeMem a v).pc = s.pc := rfl
@[simp] theorem State.writeMem_status (s : State) (a : Nat) (v : Byte) :
    (s.writeMem a v).status =
      s.status := rfl
@[simp] theorem State.writeMem_fault (s : State) (a : Nat) (v : Byte) :
    (s.writeMem a v).fault =
      s.fault := rfl
@[simp] theorem State.writeMem_readDreg (s : State) (a : Nat) (v : Byte) (j : Nat) :
    (s.writeMem a v).readDreg j = s.readDreg j := rfl

/-! ### `State.writeDreg` -/

@[simp] theorem State.writeDreg_cfg (s : State) (i : Nat) (v : Byte) :
    (s.writeDreg i v).cfg =
      s.cfg := rfl
@[simp] theorem State.writeDreg_mem (s : State) (i : Nat) (v : Byte) :
    (s.writeDreg i v).mem =
      s.mem := rfl
@[simp] theorem State.writeDreg_dregs (s : State) (i : Nat) (v : Byte) :
    (s.writeDreg i v).dregs =
      putDreg s.dregs i v := rfl
@[simp] theorem State.writeDreg_flags (s : State) (i : Nat) (v : Byte) :
    (s.writeDreg i v).flags =
      s.flags := rfl
@[simp] theorem State.writeDreg_pc (s : State) (i : Nat) (v : Byte) : (s.writeDreg i v).pc = s.pc := rfl
@[simp] theorem State.writeDreg_status (s : State) (i : Nat) (v : Byte) :
    (s.writeDreg i v).status =
      s.status := rfl
@[simp] theorem State.writeDreg_fault (s : State) (i : Nat) (v : Byte) :
    (s.writeDreg i v).fault =
      s.fault := rfl
@[simp] theorem State.writeDreg_readMem (s : State) (i : Nat) (v : Byte) (c : Nat) :
    (s.writeDreg i v).readMem c = s.readMem c := rfl

/-! ### `State.setFlags` -/

@[simp] theorem State.setFlags_cfg (s : State) (f : Flags) : (s.setFlags f).cfg = s.cfg := rfl
@[simp] theorem State.setFlags_mem (s : State) (f : Flags) : (s.setFlags f).mem = s.mem := rfl
@[simp] theorem State.setFlags_dregs (s : State) (f : Flags) : (s.setFlags f).dregs = s.dregs := rfl
@[simp] theorem State.setFlags_flags (s : State) (f : Flags) : (s.setFlags f).flags = f := rfl
@[simp] theorem State.setFlags_pc (s : State) (f : Flags) : (s.setFlags f).pc = s.pc := rfl
@[simp] theorem State.setFlags_status (s : State) (f : Flags) : (s.setFlags f).status = s.status := rfl
@[simp] theorem State.setFlags_fault (s : State) (f : Flags) : (s.setFlags f).fault = s.fault := rfl
@[simp] theorem State.setFlags_readDreg (s : State) (f : Flags) (j : Nat) :
    (s.setFlags f).readDreg j = s.readDreg j := rfl
@[simp] theorem State.setFlags_readMem (s : State) (f : Flags) (c : Nat) :
    (s.setFlags f).readMem c = s.readMem c := rfl

/-! ### `State.advance` -/

@[simp] theorem State.advance_cfg (s : State) (op : Op) : (s.advance op).cfg = s.cfg := rfl
@[simp] theorem State.advance_mem (s : State) (op : Op) : (s.advance op).mem = s.mem := rfl
@[simp] theorem State.advance_dregs (s : State) (op : Op) : (s.advance op).dregs = s.dregs := rfl
@[simp] theorem State.advance_flags (s : State) (op : Op) : (s.advance op).flags = s.flags := rfl
@[simp] theorem State.advance_pc (s : State) (op : Op) :
    (s.advance op).pc =
      s.pc + BitVec.ofNat 16 op.length := rfl
@[simp] theorem State.advance_status (s : State) (op : Op) : (s.advance op).status = s.status := rfl
@[simp] theorem State.advance_fault (s : State) (op : Op) : (s.advance op).fault = s.fault := rfl
@[simp] theorem State.advance_readDreg (s : State) (op : Op) (j : Nat) :
    (s.advance op).readDreg j = s.readDreg j := rfl
@[simp] theorem State.advance_readMem (s : State) (op : Op) (c : Nat) :
    (s.advance op).readMem c = s.readMem c := rfl

/-! ### `State.jumpTo` -/

@[simp] theorem State.jumpTo_cfg (s : State) (target : Byte) : (s.jumpTo target).cfg = s.cfg := rfl
@[simp] theorem State.jumpTo_mem (s : State) (target : Byte) : (s.jumpTo target).mem = s.mem := rfl
@[simp] theorem State.jumpTo_dregs (s : State) (target : Byte) :
    (s.jumpTo target).dregs =
      s.dregs := rfl
@[simp] theorem State.jumpTo_flags (s : State) (target : Byte) :
    (s.jumpTo target).flags =
      s.flags := rfl
@[simp] theorem State.jumpTo_pc (s : State) (target : Byte) :
    (s.jumpTo target).pc =
      zext16 target := rfl
@[simp] theorem State.jumpTo_status (s : State) (target : Byte) :
    (s.jumpTo target).status =
      s.status := rfl
@[simp] theorem State.jumpTo_fault (s : State) (target : Byte) :
    (s.jumpTo target).fault =
      s.fault := rfl
@[simp] theorem State.jumpTo_readDreg (s : State) (target : Byte) (j : Nat) :
    (s.jumpTo target).readDreg j = s.readDreg j := rfl
@[simp] theorem State.jumpTo_readMem (s : State) (target : Byte) (c : Nat) :
    (s.jumpTo target).readMem c = s.readMem c := rfl

/-! ### `State.raise` -/

@[simp] theorem State.raise_cfg (s : State) (r : Raise) : (s.raise r).cfg = s.cfg := rfl
@[simp] theorem State.raise_mem (s : State) (r : Raise) : (s.raise r).mem = s.mem := rfl
@[simp] theorem State.raise_dregs (s : State) (r : Raise) : (s.raise r).dregs = s.dregs := rfl
@[simp] theorem State.raise_flags (s : State) (r : Raise) : (s.raise r).flags = s.flags := rfl
@[simp] theorem State.raise_pc (s : State) (r : Raise) : (s.raise r).pc = s.pc := rfl
@[simp] theorem State.raise_status (s : State) (r : Raise) : (s.raise r).status = .faulted := rfl
@[simp] theorem State.raise_fault (s : State) (r : Raise) :
    (s.raise r).fault =
      { cause := r.cause, pc := s.pc, space := r.space, info := r.info } := rfl
@[simp] theorem State.raise_readDreg (s : State) (r : Raise) (j : Nat) :
    (s.raise r).readDreg j = s.readDreg j := rfl
@[simp] theorem State.raise_readMem (s : State) (r : Raise) (c : Nat) :
    (s.raise r).readMem c = s.readMem c := rfl

/-! ### Replacing one field -/

@[simp] theorem State.withPc_readDreg (s : State) (pc : PcWord) (j : Nat) :
    State.readDreg { s with pc := pc } j = s.readDreg j := rfl
@[simp] theorem State.withPc_readMem (s : State) (pc : PcWord) (c : Nat) :
    State.readMem { s with pc := pc } c = s.readMem c := rfl
@[simp] theorem State.withStatus_readDreg (s : State) (x : Status) (j : Nat) :
    State.readDreg { s with status := x } j = s.readDreg j := rfl
@[simp] theorem State.withStatus_readMem (s : State) (x : Status) (c : Nat) :
    State.readMem { s with status := x } c = s.readMem c := rfl

/-! ### The flag updates -/

@[simp] theorem Flags.setNZ_n (f : Flags) (r : Byte) : (f.setNZ r).n = r.getLsbD 7 := rfl
@[simp] theorem Flags.setNZ_z (f : Flags) (r : Byte) : (f.setNZ r).z = (r == 0x00) := rfl
@[simp] theorem Flags.setNZ_c (f : Flags) (r : Byte) : (f.setNZ r).c = f.c := rfl
@[simp] theorem Flags.setNZ_v (f : Flags) (r : Byte) : (f.setNZ r).v = f.v := rfl
@[simp] theorem Flags.setNZ_e (f : Flags) (r : Byte) : (f.setNZ r).e = f.e := rfl

@[simp] theorem Flags.clearCV_n (f : Flags) : (f.clearCV).n = f.n := rfl
@[simp] theorem Flags.clearCV_z (f : Flags) : (f.clearCV).z = f.z := rfl
@[simp] theorem Flags.clearCV_c (f : Flags) : (f.clearCV).c = false := rfl
@[simp] theorem Flags.clearCV_v (f : Flags) : (f.clearCV).v = false := rfl
@[simp] theorem Flags.clearCV_e (f : Flags) : (f.clearCV).e = f.e := rfl

@[simp] theorem Flags.setE_n (f : Flags) (dest src : Byte) : (f.setE dest src).n = f.n := rfl
@[simp] theorem Flags.setE_z (f : Flags) (dest src : Byte) : (f.setE dest src).z = f.z := rfl
@[simp] theorem Flags.setE_c (f : Flags) (dest src : Byte) : (f.setE dest src).c = f.c := rfl
@[simp] theorem Flags.setE_v (f : Flags) (dest src : Byte) : (f.setE dest src).v = f.v := rfl
@[simp] theorem Flags.setE_e (f : Flags) (dest src : Byte) : (f.setE dest src).e = (dest == src) := rfl

@[simp] theorem Flags.afterResult_n (f : Flags) (r dest src : Byte) : (f.afterResult r dest src).n = r.getLsbD 7 := rfl
@[simp] theorem Flags.afterResult_z (f : Flags) (r dest src : Byte) : (f.afterResult r dest src).z = (r == 0x00) := rfl
@[simp] theorem Flags.afterResult_c (f : Flags) (r dest src : Byte) : (f.afterResult r dest src).c = false := rfl
@[simp] theorem Flags.afterResult_v (f : Flags) (r dest src : Byte) : (f.afterResult r dest src).v = false := rfl
@[simp] theorem Flags.afterResult_e (f : Flags) (r dest src : Byte) : (f.afterResult r dest src).e = (dest == src) := rfl

@[simp] theorem Flags.afterStep_n (f : Flags) (r : Byte) : (f.afterStep r).n = r.getLsbD 7 := rfl
@[simp] theorem Flags.afterStep_z (f : Flags) (r : Byte) : (f.afterStep r).z = (r == 0x00) := rfl
@[simp] theorem Flags.afterStep_c (f : Flags) (r : Byte) : (f.afterStep r).c = false := rfl
@[simp] theorem Flags.afterStep_v (f : Flags) (r : Byte) : (f.afterStep r).v = false := rfl
@[simp] theorem Flags.afterStep_e (f : Flags) (r : Byte) : (f.afterStep r).e = f.e := rfl

end Sys2Proof.Machine
end

