-- ==== Sys2Proof/Laws/Memory.lean ====
section
/-! SUPPORT. The laws of memory: what a read sees after each memory operation, and that every memory
operation keeps the canonical form and the bounds (20_memory.md R43 to R46, R54). -/

namespace Sys2Proof.Machine

/-! ### Reads -/

theorem Memory.lookup_erase (m : Memory) (a b : Nat) :
    Memory.lookup (Memory.erase m a) b = if b = a then Config.unlistedCell else Memory.lookup m b := by
  induction m with
  | nil => simp [Memory.erase, Memory.lookup]
  | cons cell rest ih =>
    obtain ⟨k, w⟩ := cell
    by_cases hk : k = a
    · subst hk
      simp only [Memory.erase, List.filter_cons, ne_eq, not_true_eq_false, decide_false,
        Bool.false_eq_true, if_false, Memory.lookup] at ih ⊢
      rw [ih]
      split
      · rfl
      · rw [if_neg (by omega)]
    · simp only [Memory.erase, List.filter_cons, ne_eq, hk, not_false_eq_true, decide_true, if_true,
        Memory.lookup] at ih ⊢
      rw [ih]
      split
      · rw [if_neg (by omega)]
      · rfl

theorem Memory.lookup_insert (m : Memory) (a b : Nat) (v : Byte) :
    Memory.lookup (Memory.insert m a v) b = if b = a then v else Memory.lookup m b := by
  induction m with
  | nil => simp only [Memory.insert, Memory.lookup, eq_comm]
  | cons cell rest ih =>
    obtain ⟨k, w⟩ := cell
    simp only [Memory.insert]
    split
    · simp only [Memory.lookup, eq_comm (a := a)]
    · split
      · rename_i hk
        subst hk
        simp only [Memory.lookup, eq_comm (a := k)]
        split <;> rfl
      · simp only [Memory.lookup, ih]
        split
        · rw [if_neg (by omega)]
        · rfl

/-- R54: what a read sees after a write. -/
theorem Memory.lookup_store (m : Memory) (a b : Nat) (v : Byte) :
    Memory.lookup (Memory.store m a v) b = if b = a then v else Memory.lookup m b := by
  unfold Memory.store
  split
  · rename_i hv
    rw [Memory.lookup_erase, hv]
  · exact Memory.lookup_insert m a b v

/-- What a read sees after a load of bytes from `a` on (R124). -/
theorem Memory.lookup_storeAll (bytes : List Byte) (m : Memory) (a b : Nat) :
    Memory.lookup (Memory.storeAll m a bytes) b =
      if h : a ≤ b ∧ b - a < bytes.length then bytes[b - a]'h.2 else Memory.lookup m b := by
  induction bytes generalizing m a with
  | nil => simp [Memory.storeAll]
  | cons v rest ih =>
    simp only [Memory.storeAll, ih, Memory.lookup_store, List.length_cons]
    by_cases hb : b = a
    · subst hb
      simp
    · by_cases hab : a + 1 ≤ b
      · have hsub : b - a = (b - (a + 1)) + 1 := by omega
        simp only [hb, if_false, hab, true_and, hsub, List.getElem_cons_succ,
          Nat.add_lt_add_iff_right]
        have hle : a ≤ b := by omega
        simp [hle]
      · have hle : ¬ a ≤ b := by omega
        simp [hb, hab, hle]

/-! ### The canonical form -/

theorem Memory.wf_cons (a : Nat) (v : Byte) (rest : Memory) :
    Memory.wf ((a, v) :: rest) = true ↔
      v ≠ Config.unlistedCell ∧ (∀ cell ∈ rest, a < cell.1) ∧ Memory.wf rest = true := by
  simp [Memory.wf, and_assoc]

theorem Memory.mem_erase {m : Memory} {a : Nat} {cell : Host.Cell}
    (h : cell ∈ Memory.erase m a) : cell ∈ m := List.mem_of_mem_filter h

theorem Memory.wf_erase (m : Memory) (a : Nat) (h : Memory.wf m = true) :
    Memory.wf (Memory.erase m a) = true := by
  induction m with
  | nil => rfl
  | cons cell rest ih =>
    obtain ⟨k, w⟩ := cell
    obtain ⟨hw, hlt, hrest⟩ := (Memory.wf_cons k w rest).1 h
    by_cases hk : k = a
    · simpa [Memory.erase, hk] using ih hrest
    · have : Memory.erase ((k, w) :: rest) a = (k, w) :: Memory.erase rest a := by
        simp [Memory.erase, hk]
      rw [this, Memory.wf_cons]
      exact ⟨hw, fun cell hc => hlt cell (Memory.mem_erase hc), ih hrest⟩

theorem Memory.mem_insert {m : Memory} {a : Nat} {v : Byte} {cell : Host.Cell}
    (h : cell ∈ Memory.insert m a v) : cell = (a, v) ∨ cell ∈ m := by
  induction m with
  | nil => simpa [Memory.insert] using h
  | cons head rest ih =>
    obtain ⟨k, w⟩ := head
    simp only [Memory.insert] at h
    split at h
    · simpa using h
    · split at h
      · simp only [List.mem_cons] at h ⊢
        tauto
      · simp only [List.mem_cons] at h ⊢
        rcases h with h | h
        · exact .inr (.inl h)
        · rcases ih h with h | h
          · exact .inl h
          · exact .inr (.inr h)

theorem Memory.wf_insert (m : Memory) (a : Nat) (v : Byte) (hv : v ≠ Config.unlistedCell)
    (h : Memory.wf m = true) : Memory.wf (Memory.insert m a v) = true := by
  induction m with
  | nil => simp [Memory.insert, Memory.wf, hv]
  | cons cell rest ih =>
    obtain ⟨k, w⟩ := cell
    obtain ⟨hw, hlt, hrest⟩ := (Memory.wf_cons k w rest).1 h
    simp only [Memory.insert]
    split
    · rename_i hak
      rw [Memory.wf_cons]
      refine ⟨hv, fun cell hc => ?_, h⟩
      rcases List.mem_cons.1 hc with rfl | hc
      · exact hak
      · exact Nat.lt_trans hak (hlt cell hc)
    · split
      · rename_i hka
        subst hka
        rw [Memory.wf_cons]
        exact ⟨hv, hlt, hrest⟩
      · rw [Memory.wf_cons]
        refine ⟨hw, fun cell hc => ?_, ih hrest⟩
        rcases Memory.mem_insert hc with rfl | hc
        · simp only; omega
        · exact hlt cell hc

/-- A write keeps the canonical form. -/
theorem Memory.wf_store (m : Memory) (a : Nat) (v : Byte) (h : Memory.wf m = true) :
    Memory.wf (Memory.store m a v) = true := by
  unfold Memory.store
  split
  · exact Memory.wf_erase m a h
  · exact Memory.wf_insert m a v ‹_› h

/-- A load keeps the canonical form. -/
theorem Memory.wf_storeAll (bytes : List Byte) (m : Memory) (a : Nat) (h : Memory.wf m = true) :
    Memory.wf (Memory.storeAll m a bytes) = true := by
  induction bytes generalizing m a with
  | nil => exact h
  | cons b rest ih => exact ih _ _ (Memory.wf_store m a b h)

theorem Memory.mem_store {m : Memory} {a : Nat} {v : Byte} {cell : Host.Cell}
    (h : cell ∈ Memory.store m a v) : cell.1 = a ∨ cell ∈ m := by
  unfold Memory.store at h
  split at h
  · exact .inr (Memory.mem_erase h)
  · rcases Memory.mem_insert h with rfl | h
    · exact .inl rfl
    · exact .inr h

/-- A write inside the address space keeps every listed cell inside it (R45). -/
theorem Memory.inside_store {m : Memory} {a cap : Nat} (v : Byte) (ha : a < cap)
    (h : ∀ cell ∈ m, cell.1 < cap) : ∀ cell ∈ Memory.store m a v, cell.1 < cap := by
  intro cell hc
  rcases Memory.mem_store hc with rfl | hc
  · exact ha
  · exact h cell hc

/-- A load inside the address space keeps every listed cell inside it (R124). -/
theorem Memory.inside_storeAll {cap : Nat} (bytes : List Byte) (m : Memory) (a : Nat)
    (ha : a + bytes.length ≤ cap) (h : ∀ cell ∈ m, cell.1 < cap) :
    ∀ cell ∈ Memory.storeAll m a bytes, cell.1 < cap := by
  induction bytes generalizing m a with
  | nil => exact h
  | cons b rest ih =>
    simp only [List.length_cons] at ha
    exact ih _ _ (by omega) (Memory.inside_store b (by omega) h)

/-! ### The state's operations on memory and registers -/

/-- Everything a register write can do to a register read. -/
theorem getD_putDreg (regs : List Byte) (i j : Nat) (v : Byte) :
    (putDreg regs i v).getD j 0x00 = if j = i then v else regs.getD j 0x00 := by
  induction i generalizing regs j with
  | zero => cases regs <;> cases j <;> simp [putDreg]
  | succ i ih =>
    simp only [List.getD_eq_getElem?_getD, BitVec.ofNat_eq_ofNat] at ih
    cases regs <;> cases j <;> simp [putDreg, ih]

/-- Writing a register that exists keeps the number of registers (R16). -/
theorem length_putDreg (regs : List Byte) (i : Nat) (v : Byte) (h : i < regs.length) :
    (putDreg regs i v).length = regs.length := by
  induction i generalizing regs with
  | zero => cases regs <;> simp_all [putDreg]
  | succ i ih => cases regs <;> simp_all [putDreg]

/-- R18: what a register read sees after a register write. -/
theorem State.readDreg_writeDreg (s : State) (i j : Nat) (v : Byte) :
    (s.writeDreg i v).readDreg j = if j = i then v else s.readDreg j :=
  getD_putDreg s.dregs i j v

end Sys2Proof.Machine
end

