-- ==== Sys2Proof/Laws/Operands.lean ====
section
/-! SUPPORT. Once for each shared operation over operands, everything it can do (30_encoding.md R72 to
R75), and once for the execute phase. -/

namespace Sys2Proof.Machine

/-! ### The checks -/

/-- R72: an admitted place comes from an operand of that kind. -/
theorem admitted_eq_ok {kinds : List Kind} {o : Operand} {p : Place} (h : admitted kinds o = .ok p) :
    (∃ i, o = .dreg i ∧ p = .dreg i ∧ kinds.contains .dreg = true) ∨
    (∃ a, o = .mem a ∧ p = .mem a ∧ kinds.contains .mem = true) ∨
    (∃ v, o = .imm v ∧ p = .imm v ∧ kinds.contains .imm = true) := by
  cases o <;> simp only [admitted] at h <;> (try split at h) <;> simp_all

/-- R72: a refused operand raises the fault that records its tag. -/
theorem admitted_eq_error {kinds : List Kind} {o : Operand} {r : Raise} (h : admitted kinds o = .error r) :
    r = .unsupportedAddressingMode o.tag := by
  cases o <;> simp only [admitted] at h <;> (try split at h) <;> simp_all

/-- The place exists: R73 has nothing to refuse. -/
def Place.inRange (cfg : Config) : Place → Prop
  | .dreg index => index.toNat < cfg.numDregs
  | .mem address => address.toNat < cfg.memCap
  | .imm _ => True

/-- R73: exactly the places in range pass. -/
theorem checkRange_eq_ok {cfg : Config} {p : Place} :
    checkRange cfg p = .ok () ↔ p.inRange cfg := by
  cases p <;> simp [checkRange, Place.inRange]

/-- R73: what a place out of range raises. -/
theorem checkRange_eq_error {cfg : Config} {p : Place} {r : Raise} (h : checkRange cfg p = .error r) :
    (∃ i : Byte, p = .dreg i ∧ cfg.numDregs ≤ i.toNat ∧ r = .outOfBounds .register i.toNat) ∨
    (∃ a : Byte, p = .mem a ∧ cfg.memCap ≤ a.toNat ∧ r = .outOfBounds .data a.toNat) := by
  cases p <;> simp only [checkRange] at h <;> (try split at h) <;> simp_all

/-- The faults the checks of forms and ranges can raise (R72, R73). -/
def OperandFault (cfg : Config) (r : Raise) : Prop :=
  (∃ tag, r = .unsupportedAddressingMode tag) ∨
  (∃ i : Byte, cfg.numDregs ≤ i.toNat ∧ r = .outOfBounds .register i.toNat) ∨
  (∃ a : Byte, cfg.memCap ≤ a.toNat ∧ r = .outOfBounds .data a.toNat)

theorem operandFault_of_admitted {kinds : List Kind} {o : Operand} {r : Raise} (cfg : Config)
    (h : admitted kinds o = .error r) : OperandFault cfg r := .inl ⟨_, admitted_eq_error h⟩

theorem operandFault_of_checkRange {cfg : Config} {p : Place} {r : Raise}
    (h : checkRange cfg p = .error r) : OperandFault cfg r := by
  rcases checkRange_eq_error h with ⟨i, -, hi, hr⟩ | ⟨a, -, ha, hr⟩
  · exact .inr (.inl ⟨i, hi, hr⟩)
  · exact .inr (.inr ⟨a, ha, hr⟩)

/-- Everything the checks of format U can answer. -/
theorem resolveOne_cases (op : Op) (dest : Operand) (cfg : Config) :
    (∃ r, resolveOne op dest cfg = .error r ∧ OperandFault cfg r) ∨
    (∃ d, resolveOne op dest cfg = .ok d ∧ admitted (destAdmits op) dest = .ok d ∧ d.inRange cfg) := by
  unfold resolveOne
  cases h : admitted (destAdmits op) dest with
  | error r => exact .inl ⟨r, rfl, operandFault_of_admitted cfg h⟩
  | ok d =>
    cases hd : checkRange cfg d with
    | error r => exact .inl ⟨r, by simp [hd], operandFault_of_checkRange hd⟩
    | ok u => exact .inr ⟨d, by simp [hd], rfl, checkRange_eq_ok.1 hd⟩

/-- Everything the checks of format B can answer. -/
theorem resolveTwo_cases (op : Op) (src dest : Operand) (cfg : Config) :
    (∃ r, resolveTwo op src dest cfg = .error r ∧ OperandFault cfg r) ∨
    (∃ a d, resolveTwo op src dest cfg = .ok (a, d) ∧
      admitted (srcAdmits op) src = .ok a ∧ admitted (destAdmits op) dest = .ok d ∧
      a.inRange cfg ∧ d.inRange cfg) := by
  unfold resolveTwo
  cases hs : admitted (srcAdmits op) src with
  | error r => exact .inl ⟨r, rfl, operandFault_of_admitted cfg hs⟩
  | ok a =>
    cases hd : admitted (destAdmits op) dest with
    | error r => exact .inl ⟨r, by simp, operandFault_of_admitted cfg hd⟩
    | ok d =>
      cases ha : checkRange cfg a with
      | error r => exact .inl ⟨r, by simp [ha], operandFault_of_checkRange ha⟩
      | ok u =>
        cases hb : checkRange cfg d with
        | error r => exact .inl ⟨r, by simp [ha, hb], operandFault_of_checkRange hb⟩
        | ok u' =>
          exact .inr ⟨a, d, by simp [ha, hb], rfl, rfl, checkRange_eq_ok.1 ha, checkRange_eq_ok.1 hb⟩

/-- Everything an instruction of format U can do. -/
theorem withOne_cases (op : Op) (dest : Operand) (s : State) (execute : Place → State) :
    (∃ r, withOne op dest s execute = .next (s.raise r) ∧ OperandFault s.cfg r) ∨
    (∃ d, withOne op dest s execute = .next (execute d) ∧
      admitted (destAdmits op) dest = .ok d ∧ d.inRange s.cfg) := by
  unfold withOne
  rcases resolveOne_cases op dest s.cfg with ⟨r, h, hr⟩ | ⟨d, h, hd, hin⟩
  · exact .inl ⟨r, by rw [h], hr⟩
  · exact .inr ⟨d, by rw [h], hd, hin⟩

/-- Everything an instruction of format B can do. -/
theorem withTwo_cases (op : Op) (src dest : Operand) (s : State) (execute : Place → Place → State) :
    (∃ r, withTwo op src dest s execute = .next (s.raise r) ∧ OperandFault s.cfg r) ∨
    (∃ a d, withTwo op src dest s execute = .next (execute a d) ∧
      admitted (srcAdmits op) src = .ok a ∧ admitted (destAdmits op) dest = .ok d ∧
      a.inRange s.cfg ∧ d.inRange s.cfg) := by
  unfold withTwo
  rcases resolveTwo_cases op src dest s.cfg with ⟨r, h, hr⟩ | ⟨a, d, h, ha, hd, hain, hdin⟩
  · exact .inl ⟨r, by rw [h], hr⟩
  · exact .inr ⟨a, d, by rw [h], ha, hd, hain, hdin⟩

/-! ### Writing a place -/

@[simp] theorem State.writePlace_cfg (s : State) (p : Place) (r : Byte) :
    (s.writePlace p r).cfg = s.cfg := by cases p <;> rfl
@[simp] theorem State.writePlace_flags (s : State) (p : Place) (r : Byte) :
    (s.writePlace p r).flags = s.flags := by cases p <;> rfl
@[simp] theorem State.writePlace_pc (s : State) (p : Place) (r : Byte) :
    (s.writePlace p r).pc = s.pc := by cases p <;> rfl
@[simp] theorem State.writePlace_status (s : State) (p : Place) (r : Byte) :
    (s.writePlace p r).status = s.status := by cases p <;> rfl
@[simp] theorem State.writePlace_fault (s : State) (p : Place) (r : Byte) :
    (s.writePlace p r).fault = s.fault := by cases p <;> rfl

/-- R75: what a memory read sees after an operand is written. -/
theorem State.readMem_writePlace (s : State) (p : Place) (r : Byte) (b : Nat) :
    (s.writePlace p r).readMem b =
      match p with
      | .mem address => if b = address.toNat then r else s.readMem b
      | .dreg _ => s.readMem b
      | .imm _ => s.readMem b := by
  cases p with
  | mem address => exact Memory.lookup_store s.mem address.toNat b r
  | dreg i => rfl
  | imm v => rfl

/-- R75: what a register read sees after an operand is written. -/
theorem State.readDreg_writePlace (s : State) (p : Place) (r : Byte) (j : Nat) :
    (s.writePlace p r).readDreg j =
      match p with
      | .dreg index => if j = index.toNat then r else s.readDreg j
      | .mem _ => s.readDreg j
      | .imm _ => s.readDreg j := by
  cases p with
  | dreg i => exact State.readDreg_writeDreg s i.toNat j r
  | mem a => rfl
  | imm v => rfl

/-! ### The execute phase -/

/-- What the execute phase of an instruction does when it does not fault: at most one place is written,
the flags are set, and pc moves. `p` is the place written and `r` the byte, `none` where nothing is
written. -/
structure Completed (s t : State) (op : Op) : Prop where
  cfg : t.cfg = s.cfg
  fault : t.fault = s.fault
  status : t.status = if op = .halt then .halted else s.status
  carry : t.flags = s.flags ∨ (t.flags.c = false ∧ t.flags.v = false)
  written : (t.mem = s.mem ∧ t.dregs = s.dregs) ∨
    ∃ p r, Place.inRange s.cfg p ∧ t.mem = (s.writePlace p r).mem ∧ t.dregs = (s.writePlace p r).dregs

theorem State.combine_completed (s : State) (op : Op) (f : Byte → Byte → Byte) (a d : Place)
    (hd : d.inRange s.cfg) (hop : op ≠ .halt) : Completed s (s.combine op f a d) op where
  cfg := by simp [State.combine]
  fault := by simp [State.combine]
  status := by simp [State.combine, hop]
  carry := .inr (by simp [State.combine])
  written := .inr ⟨d, _, hd, rfl, rfl⟩

theorem State.count_completed (s : State) (op : Op) (f : Byte → Byte) (d : Place)
    (hd : d.inRange s.cfg) (hop : op ≠ .halt) : Completed s (s.count op f d) op where
  cfg := by simp [State.count]
  fault := by simp [State.count]
  status := by simp [State.count, hop]
  carry := .inr (by simp [State.count])
  written := .inr ⟨d, _, hd, rfl, rfl⟩

theorem State.branch_completed (s : State) (op : Op) (taken : Bool) (target : Byte)
    (hop : op ≠ .halt) : Completed s (s.branch op taken target) op := by
  constructor <;> cases taken <;> simp [State.branch, hop]

/-- The faults the execute phase can raise: those of the operand checks, and the zero divisor (R113). -/
def ExecuteFault (cfg : Config) (r : Raise) : Prop := OperandFault cfg r ∨ r = .divisionByZero

/-- Everything the execute phase can do: it answers a next state, which is either the state after a fault
of the operands or of a zero divisor, or the state after the instruction completed. -/
theorem exec_cases (i : Instr) (s : State) :
    (∃ r, exec i s = .next (s.raise r) ∧ ExecuteFault s.cfg r) ∨
    (∃ t, exec i s = .next t ∧ Completed s t i.op) := by
  cases i with
  | noop => exact .inr ⟨_, rfl, by constructor <;> simp [Instr.op]⟩
  | halt => exact .inr ⟨_, rfl, by constructor <;> simp [Instr.op]⟩
  | moveB src dest =>
    simp only [exec, execMoveB]
    rcases withTwo_cases .moveB src dest s _ with ⟨r, h, hr⟩ | ⟨a, d, h, -, -, -, hd⟩
    · exact .inl ⟨r, h, .inl hr⟩
    · exact .inr ⟨_, h, by simp, by simp, by simp [Instr.op], .inr (by simp), .inr ⟨d, _, hd, rfl, rfl⟩⟩
  | addB src dest =>
    simp only [exec, execAddB]
    rcases withTwo_cases .addB src dest s _ with ⟨r, h, hr⟩ | ⟨a, d, h, -, -, -, hd⟩
    · exact .inl ⟨r, h, .inl hr⟩
    · exact .inr ⟨_, h, State.combine_completed s _ _ a d hd (by decide)⟩
  | subB src dest =>
    simp only [exec, execSubB]
    rcases withTwo_cases .subB src dest s _ with ⟨r, h, hr⟩ | ⟨a, d, h, -, -, -, hd⟩
    · exact .inl ⟨r, h, .inl hr⟩
    · exact .inr ⟨_, h, State.combine_completed s _ _ a d hd (by decide)⟩
  | mulB src dest =>
    simp only [exec, execMulB]
    rcases withTwo_cases .mulB src dest s _ with ⟨r, h, hr⟩ | ⟨a, d, h, -, -, -, hd⟩
    · exact .inl ⟨r, h, .inl hr⟩
    · exact .inr ⟨_, h, State.combine_completed s _ _ a d hd (by decide)⟩
  | divB src dest =>
    simp only [exec, execDivB]
    rcases withTwo_cases .divB src dest s _ with ⟨r, h, hr⟩ | ⟨a, d, h, -, -, -, hd⟩
    · exact .inl ⟨r, h, .inl hr⟩
    · rw [h]
      split
      · exact .inl ⟨_, rfl, .inr rfl⟩
      · exact .inr ⟨_, rfl, State.combine_completed s _ _ a d hd (by decide)⟩
  | inc dest =>
    simp only [exec, execInc]
    rcases withOne_cases .inc dest s _ with ⟨r, h, hr⟩ | ⟨d, h, -, hd⟩
    · exact .inl ⟨r, h, .inl hr⟩
    · exact .inr ⟨_, h, State.count_completed s _ _ d hd (by decide)⟩
  | dec dest =>
    simp only [exec, execDec]
    rcases withOne_cases .dec dest s _ with ⟨r, h, hr⟩ | ⟨d, h, -, hd⟩
    · exact .inl ⟨r, h, .inl hr⟩
    · exact .inr ⟨_, h, State.count_completed s _ _ d hd (by decide)⟩
  | cmpB src dest =>
    simp only [exec, execCmpB]
    rcases withTwo_cases .cmpB src dest s _ with ⟨r, h, hr⟩ | ⟨a, d, h, -, -, -, hd⟩
    · exact .inl ⟨r, h, .inl hr⟩
    · exact .inr ⟨_, h, by simp, by simp, by simp [Instr.op], .inr (by simp), .inl (by simp)⟩
  | jmp target => exact .inr ⟨_, rfl, State.branch_completed s _ _ _ (by decide)⟩
  | jnz target => exact .inr ⟨_, rfl, State.branch_completed s _ _ _ (by decide)⟩
  | jng target => exact .inr ⟨_, rfl, State.branch_completed s _ _ _ (by decide)⟩
  | jeq target => exact .inr ⟨_, rfl, State.branch_completed s _ _ _ (by decide)⟩
  | jne target => exact .inr ⟨_, rfl, State.branch_completed s _ _ _ (by decide)⟩

end Sys2Proof.Machine
end

