-- ==== Sys2Proof/Laws/Step.lean ====
section
/-! SUPPORT. Once everything a fetch, a step and a bounded run can do (30_encoding.md R71; 10_state.md
R36, R38). -/

namespace Sys2Proof.Machine

/-! ### Decoding by opcode -/

/-- The instruction of a row of the opcode map with the given field bytes (R62). -/
def instrOf (op : Op) (b1 b2 b3 b4 : Byte) : Instr :=
  match op with
  | .noop => .noop
  | .halt => .halt
  | .moveB => .moveB (operandOf b1 b2) (operandOf b3 b4)
  | .addB => .addB (operandOf b1 b2) (operandOf b3 b4)
  | .subB => .subB (operandOf b1 b2) (operandOf b3 b4)
  | .mulB => .mulB (operandOf b1 b2) (operandOf b3 b4)
  | .divB => .divB (operandOf b1 b2) (operandOf b3 b4)
  | .inc => .inc (operandOf b1 b2)
  | .dec => .dec (operandOf b1 b2)
  | .cmpB => .cmpB (operandOf b1 b2) (operandOf b3 b4)
  | .jmp => .jmp b1
  | .jnz => .jnz b1
  | .jng => .jng b1
  | .jeq => .jeq b1
  | .jne => .jne b1

@[simp] theorem instrOf_op (op : Op) (b1 b2 b3 b4 : Byte) : (instrOf op b1 b2 b3 b4).op = op := by
  cases op <;> rfl

/-- R71: when the field bytes of the opcode's format are there, they are the fields. -/
theorem decode_long (op : Op) (fields : List Byte) (h : op.length ≤ fields.length + 1) :
    decode (op.code :: fields) =
      .ok (instrOf op (fields.getD 0 0) (fields.getD 1 0) (fields.getD 2 0) (fields.getD 3 0),
        fields.drop (op.length - 1)) := by
  simp only [decode, lookupOpcode_code]
  rcases fields with _ | ⟨b1, _ | ⟨b2, _ | ⟨b3, _ | ⟨b4, rest⟩⟩⟩⟩ <;> cases op <;>
    first
    | rfl
    | simp [Op.length, Op.format, Format.length] at h

/-- R71: when a field byte is missing, the decoder says how many bytes are there. -/
theorem decode_short (op : Op) (fields : List Byte) (h : fields.length + 1 < op.length) :
    decode (op.code :: fields) = .error (.truncated (fields.length + 1)) := by
  simp only [decode, lookupOpcode_code]
  rcases fields with _ | ⟨b1, _ | ⟨b2, _ | ⟨b3, _ | ⟨b4, rest⟩⟩⟩⟩ <;> cases op <;>
    first
    | rfl
    | (simp only [Op.length, Op.format, Format.length, List.length_cons, List.length_nil] at h; omega)

/-! ### Fetching -/

/-- The field bytes of the instruction at pc that exist. -/
def State.fieldBytes (s : State) : List Byte :=
  (List.range (min 4 (s.cfg.memCap - s.pc.toNat - 1))).map fun k => byteAt s (k + 1)

theorem State.fetchBytes_outside (s : State) (h : s.cfg.memCap ≤ s.pc.toNat) : s.fetchBytes = [] := by
  have : s.cfg.memCap - s.pc.toNat = 0 := by omega
  simp [State.fetchBytes, this]

theorem State.fetchBytes_inside (s : State) (h : s.pc.toNat < s.cfg.memCap) :
    s.fetchBytes = byteAt s 0 :: s.fieldBytes := by
  have : min maxLength (s.cfg.memCap - s.pc.toNat) =
      min 4 (s.cfg.memCap - s.pc.toNat - 1) + 1 := by
    simp only [maxLength]; omega
  simp only [State.fetchBytes, this, List.range_succ_eq_map, List.map_cons, List.map_map,
    State.fieldBytes]
  rfl

theorem State.fieldBytes_length (s : State) :
    s.fieldBytes.length = min 4 (s.cfg.memCap - s.pc.toNat - 1) := by simp [State.fieldBytes]

theorem State.fieldBytes_getD (s : State) (k : Nat)
    (h : k < min 4 (s.cfg.memCap - s.pc.toNat - 1)) :
    s.fieldBytes.getD k 0 = byteAt s (k + 1) := by
  simp only [State.fieldBytes, List.getD_eq_getElem?_getD, List.getElem?_map,
    List.getElem?_range h]
  rfl

/-- The instruction that the bytes at pc spell for a row of the opcode map. -/
def State.instrAt (s : State) (op : Op) : Instr :=
  instrOf op (byteAt s 1) (byteAt s 2) (byteAt s 3) (byteAt s 4)

/-- R71, R113: a fetch beyond the end of memory. -/
theorem State.fetch_outside (s : State) (h : s.cfg.memCap ≤ s.pc.toNat) :
    s.fetch = .error (.outOfBounds .fetch s.pc.toNat) := by
  simp [State.fetch, s.fetchBytes_outside h, decode]

/-- R71, R65: a fetch of an unassigned opcode. -/
theorem State.fetch_unknown (s : State) (h : s.pc.toNat < s.cfg.memCap)
    (hop : lookupOpcode (byteAt s 0) = none) :
    s.fetch = .error (.unknownOpcode (byteAt s 0)) := by
  simp [State.fetch, s.fetchBytes_inside h, decode, hop]

/-- R71: a fetch of an instruction that runs past the end of memory. -/
theorem State.fetch_truncated (s : State) (op : Op) (h : s.pc.toNat < s.cfg.memCap)
    (hop : byteAt s 0 = op.code) (hlen : s.cfg.memCap < s.pc.toNat + op.length) :
    s.fetch = .error (.outOfBounds .fetch s.cfg.memCap) := by
  have hb := (Op.length_bounds op).2
  simp only [maxLength] at hb
  have hl : s.fieldBytes.length + 1 = s.cfg.memCap - s.pc.toNat := by
    rw [s.fieldBytes_length]; omega
  have hsum : s.pc.toNat + (s.cfg.memCap - s.pc.toNat) = s.cfg.memCap := by omega
  simp only [State.fetch, s.fetchBytes_inside h, hop, decode_short op s.fieldBytes (by omega), hl, hsum]

/-- R71: a fetch of an instruction whose bytes all exist. -/
theorem State.fetch_inside (s : State) (op : Op) (hop : byteAt s 0 = op.code)
    (hlen : s.pc.toNat + op.length ≤ s.cfg.memCap) : s.fetch = .ok (s.instrAt op) := by
  have hb := Op.length_bounds op
  simp only [maxLength] at hb
  have hl := s.fieldBytes_length
  simp only [State.fetch, s.fetchBytes_inside (by omega), hop, decode_long op s.fieldBytes (by omega)]
  have key : ∀ k, k + 1 < op.length → s.fieldBytes.getD k 0 = byteAt s (k + 1) :=
    fun k hk => s.fieldBytes_getD k (by omega)
  congr 1
  cases op <;> simp (disch := decide) only [instrOf, State.instrAt, key]

/-! ### Stepping -/

/-- R71, R113: the faults a fetch can raise. -/
def FetchFault (s : State) (r : Raise) : Prop :=
  (s.cfg.memCap ≤ s.pc.toNat ∧ r = .outOfBounds .fetch s.pc.toNat) ∨
  (s.pc.toNat < s.cfg.memCap ∧ lookupOpcode (byteAt s 0) = none ∧ r = .unknownOpcode (byteAt s 0)) ∨
  (∃ op : Op, OpcodeAt s op.code ∧ s.cfg.memCap < s.pc.toNat + op.length ∧
    r = .outOfBounds .fetch s.cfg.memCap)

/-- Everything a step of a running machine can do: its fetch faults, or it is the execute phase of the
instruction that the bytes at pc spell. -/
theorem step_running_cases (s : State) (hs : s.status = .running) :
    (∃ r, FetchFault s r ∧ step s = .next (s.raise r)) ∨
    (∃ op : Op, OpcodeAt s op.code ∧ s.pc.toNat + op.length ≤ s.cfg.memCap ∧
      step s = exec (s.instrAt op) s) := by
  by_cases hpc : s.pc.toNat < s.cfg.memCap
  · cases hop : lookupOpcode (byteAt s 0) with
    | none =>
      exact .inl ⟨_, .inr (.inl ⟨hpc, hop, rfl⟩), by simp [step, hs, s.fetch_unknown hpc hop]⟩
    | some op =>
      have hcode := lookupOpcode_eq_some hop
      have hat : OpcodeAt s op.code := ⟨hs, hpc, hcode⟩
      by_cases hlen : s.cfg.memCap < s.pc.toNat + op.length
      · exact .inl ⟨_, .inr (.inr ⟨op, hat, hlen, rfl⟩),
          by simp [step, hs, s.fetch_truncated op hpc hcode hlen]⟩
      · exact .inr ⟨op, hat, by omega, by simp [step, hs, s.fetch_inside op hcode (by omega)]⟩
  · exact .inl ⟨_, .inl ⟨by omega, rfl⟩, by simp [step, hs, s.fetch_outside (by omega)]⟩

/-- R34: what a step requested in a terminal state answers. -/
theorem step_terminal (s : State) (hs : s.status ≠ .running) : step s = .next s := by
  cases h : s.status with
  | running => exact absurd h hs
  | halted => simp [step, h]
  | faulted => simp [step, h]

/-- The step of a machine whose next instruction is known and lies inside memory. -/
theorem step_opcodeAt {s : State} {op : Op} (h : OpcodeAt s op.code)
    (hlen : s.pc.toNat + op.length ≤ s.cfg.memCap) : step s = exec (s.instrAt op) s := by
  simp [step, h.1, s.fetch_inside op h.2.2 hlen]

/-- The step of a machine whose next instruction is known and runs past the end of memory. -/
theorem step_opcodeAt_truncated {s : State} {op : Op} (h : OpcodeAt s op.code)
    (hlen : s.cfg.memCap < s.pc.toNat + op.length) :
    step s = .next (s.raise (.outOfBounds .fetch s.cfg.memCap)) := by
  simp [step, h.1, s.fetch_truncated op h.2.1 h.2.2 hlen]

/-- R12: the 16-bit value of a byte is its unsigned reading. -/
theorem zext16_eq_ofNat (b : Byte) : zext16 b = BitVec.ofNat 16 b.toNat :=
  BitVec.eq_of_toNat_eq (by simp [zext16])

@[simp] theorem toNat_zext16 (b : Byte) : (zext16 b).toNat = b.toNat := by
  simp only [zext16, BitVec.toNat_setWidth]
  exact Nat.mod_eq_of_lt (by have := b.isLt; omega)

/-! What each raise leaves is the state `Faulted` describes (R37). -/

theorem faulted_unknownOpcode (s : State) (opcode : Byte) :
    Faulted s (s.raise (.unknownOpcode opcode)) .unknownOpcode .fetch opcode.toNat :=
  ⟨rfl, rfl, rfl, rfl, zext16_eq_ofNat opcode, rfl, rfl, rfl, fun _ => rfl, fun _ => rfl⟩

theorem faulted_outOfBounds (s : State) (space : FaultSpace) (value : Nat) :
    Faulted s (s.raise (.outOfBounds space value)) .outOfBounds space value :=
  ⟨rfl, rfl, rfl, rfl, rfl, rfl, rfl, rfl, fun _ => rfl, fun _ => rfl⟩

theorem faulted_unsupportedAddressingMode (s : State) (tag : Byte) :
    Faulted s (s.raise (.unsupportedAddressingMode tag)) .unsupportedAddressingMode .none tag.toNat :=
  ⟨rfl, rfl, rfl, rfl, zext16_eq_ofNat tag, rfl, rfl, rfl, fun _ => rfl, fun _ => rfl⟩

theorem faulted_divisionByZero (s : State) :
    Faulted s (s.raise .divisionByZero) .divisionByZero .none 0 :=
  ⟨rfl, rfl, rfl, rfl, rfl, rfl, rfl, rfl, fun _ => rfl, fun _ => rfl⟩

/-! ### Running -/

/-- R38: a bounded run of a machine that is not running answers the machine as it is. -/
theorem runFor_terminal (limit : Nat) (s : State) (hs : s.status ≠ .running) :
    runFor limit s = .next s := by
  cases limit with
  | zero => rfl
  | succ n =>
    cases h : s.status with
    | running => exact absurd h hs
    | halted => simp [runFor, h]
    | faulted => simp [runFor, h]

/-- R38: one step of a bounded run. -/
theorem runFor_succ {limit : Nat} {s t : State} (hs : s.status = .running) (h : step s = .next t) :
    runFor (limit + 1) s = runFor limit t := by simp [runFor, hs, h]

end Sys2Proof.Machine
end

