-- ==== Sys2Proof/Laws/Effects.lean ====
section
/-! SUPPORT. What a transition can do, in the terms of Sys2Proof/Safety.lean: the lemmas that the proofs
about the instructions' rules cite instead of unfolding a step. -/

namespace Sys2Proof.Machine

/-! ### The checks of an operand given by its bytes -/

/-- R72 on bytes: what a slot answers to a tag byte and a value byte. -/
theorem admitted_operandOf (kinds : List Kind) (tag v : Byte) :
    admitted kinds (operandOf tag v) =
      if tag = 0#8 ∧ kinds.contains .dreg then .ok (.dreg v)
      else if tag = 2#8 ∧ kinds.contains .mem then .ok (.mem v)
      else if tag = 3#8 ∧ kinds.contains .imm then .ok (.imm v)
      else .error (.unsupportedAddressingMode tag) := by
  have htag := (operandOf_spec tag v).2.1
  unfold operandOf at htag ⊢
  simp only [BitVec.ofNat_eq_ofNat] at htag ⊢
  by_cases h0 : tag = 0#8
  · subst h0; simp [admitted, Operand.tag]
  by_cases h1 : tag = 1#8
  · subst h1; simp [admitted, Operand.tag]
  by_cases h2 : tag = 2#8
  · subst h2; simp [admitted, Operand.tag]
  by_cases h3 : tag = 3#8
  · subst h3; simp [admitted, Operand.tag]
  simp [h0, h1, h2, h3, admitted, Operand.tag]

/-- R73: the two answers for a register index. -/
theorem checkRange_dreg (cfg : Config) (i : Byte) :
    (cfg.numDregs ≤ i.toNat ∧ checkRange cfg (.dreg i) = .error (.outOfBounds .register i.toNat)) ∨
    (¬ cfg.numDregs ≤ i.toNat ∧ checkRange cfg (.dreg i) = .ok ()) := by
  by_cases h : i.toNat < cfg.numDregs
  · exact .inr ⟨by omega, by simp [checkRange, h]⟩
  · exact .inl ⟨by omega, by simp [checkRange, h]⟩

/-- R73: the two answers for a cell address. -/
theorem checkRange_mem (cfg : Config) (a : Byte) :
    (cfg.memCap ≤ a.toNat ∧ checkRange cfg (.mem a) = .error (.outOfBounds .data a.toNat)) ∨
    (¬ cfg.memCap ≤ a.toNat ∧ checkRange cfg (.mem a) = .ok ()) := by
  by_cases h : a.toNat < cfg.memCap
  · exact .inr ⟨by omega, by simp [checkRange, h]⟩
  · exact .inl ⟨by omega, by simp [checkRange, h]⟩

/-! ### What was written -/

theorem registerWritten_of (s t : State) (i r : Byte) (hd : t.dregs = putDreg s.dregs i.toNat r)
    (hm : t.mem = s.mem) : RegisterWritten s t i.toNat r := by
  have h := getD_putDreg s.dregs i.toNat
  refine ⟨?_, fun j hj => ?_, fun a => by simp [State.readMem, hm]⟩
  · simp only [State.readDreg, hd]; rw [h]; simp
  · simp only [State.readDreg, hd]; rw [h, if_neg hj]

theorem cellWritten_of (s t : State) (a r : Byte) (hm : t.mem = Memory.store s.mem a.toNat r)
    (hd : t.dregs = s.dregs) : CellWritten s t a.toNat r := by
  have h := Memory.lookup_store s.mem a.toNat
  refine ⟨?_, fun j hj => ?_, fun i => by simp [State.readDreg, hd]⟩
  · simp only [State.readMem, hm]; rw [h]; simp
  · simp only [State.readMem, hm]; rw [h, if_neg hj]

theorem nothingWritten_of (s t : State) (hm : t.mem = s.mem) (hd : t.dregs = s.dregs) :
    NothingWritten s t :=
  ⟨fun j => by simp [State.readDreg, hd], fun j => by simp [State.readMem, hm]⟩

theorem advanced_of (s t : State) (op : Op) (n : Nat) (hn : op.length = n)
    (hpc : t.pc = s.pc + BitVec.ofNat 16 op.length) (hs : t.status = s.status)
    (hf : t.fault = s.fault) (hc : t.cfg = s.cfg) : Advanced s t n := hn ▸ ⟨hpc, hs, hf, hc⟩

/-! ### Arithmetic -/

/-- R91, R97: the wrapped difference is zero exactly when the operands are equal. -/
theorem subBytes_eq_zero (b a : Byte) : subBytes b a = 0#8 ↔ b = a := by
  have h : subBytes b a = b - a := by
    apply BitVec.eq_of_toInt_eq; simp [subBytes, wrap8, BitVec.toInt_sub]
  rw [h]; exact BitVec.sub_eq_iff_eq_add.trans (by simp)

/-! ### Transitions -/

/-- R64: the opcode byte names its row. -/
theorem Op.code_injective {a b : Op} (h : a.code = b.code) : a = b := by
  have := congrArg lookupOpcode h; simpa using this

/-- Everything a transition can do: take a fault of the fetch or of the execute phase, or complete the
instruction at pc, which lies inside memory. -/
theorem transition_cases {s t : State} (h : Transition s t) :
    (∃ r, (FetchFault s r ∨ ExecuteFault s.cfg r) ∧ t = s.raise r) ∨
    (∃ op : Op, OpcodeAt s op.code ∧ s.pc.toNat + op.length ≤ s.cfg.memCap ∧
      exec (s.instrAt op) s = .next t ∧ Completed s t op) := by
  obtain ⟨hs, h⟩ := h
  rcases step_running_cases s hs with ⟨r, hr, h'⟩ | ⟨op, hat, hl, h'⟩
  · rw [h'] at h; cases h; exact .inl ⟨r, .inl hr, rfl⟩
  · rcases exec_cases (s.instrAt op) s with ⟨r, h'', hr⟩ | ⟨t', h'', hc⟩
    · rw [h', h''] at h; cases h; exact .inl ⟨r, .inr hr, rfl⟩
    · rw [h', h''] at h; cases h; exact .inr ⟨op, hat, hl, h'', by simpa [State.instrAt] using hc⟩

/-- R108: every fault has one of the four causes. -/
theorem fault_cause_ne_none {s : State} {r : Raise} (h : FetchFault s r ∨ ExecuteFault s.cfg r) :
    r.cause ≠ .none := by
  rcases h with (⟨_, rfl⟩ | ⟨_, _, rfl⟩ | ⟨_, _, _, rfl⟩) |
    ((⟨_, rfl⟩ | ⟨_, _, rfl⟩ | ⟨_, _, rfl⟩) | rfl) <;>
  simp [Raise.outOfBounds, Raise.unknownOpcode, Raise.unsupportedAddressingMode,
    Raise.divisionByZero]

/-- R33: an instruction that completes does not enter `Faulted`. -/
theorem Completed.not_faulted {s t : State} {op : Op} (hs : s.status = .running)
    (h : Completed s t op) : t.status ≠ .faulted := by
  rw [h.status, hs]; split <;> simp

/-- What an answer of format U comes from. -/
theorem withOne_next {op : Op} {dest : Operand} {s t : State} {f : Place → State}
    (h : withOne op dest s f = .next t) :
    (∃ r, t = s.raise r) ∨ ∃ d, t = f d ∧ admitted (destAdmits op) dest = .ok d := by
  rcases withOne_cases op dest s f with ⟨r, h', -⟩ | ⟨d, h', h1, -⟩
  · rw [h'] at h; cases h; exact .inl ⟨r, rfl⟩
  · rw [h'] at h; cases h; exact .inr ⟨d, rfl, h1⟩

/-- What an answer of format B comes from. -/
theorem withTwo_next {op : Op} {src dest : Operand} {s t : State} {f : Place → Place → State}
    (h : withTwo op src dest s f = .next t) :
    (∃ r, t = s.raise r) ∨
    ∃ a d, t = f a d ∧ admitted (srcAdmits op) src = .ok a ∧ admitted (destAdmits op) dest = .ok d := by
  rcases withTwo_cases op src dest s f with ⟨r, h', -⟩ | ⟨a, d, h', h1, h2, -⟩
  · rw [h'] at h; cases h; exact .inl ⟨r, rfl⟩
  · rw [h'] at h; cases h; exact .inr ⟨a, d, rfl, h1, h2⟩

end Sys2Proof.Machine
end

