-- ==== Sys2Proof/Laws/PerInstr.lean ====
section
/-! SUPPORT. The statements made for each instruction as syntax, one lemma per constructor. -/

namespace Sys2Proof.Laws.EncodedLength

/-- R63: the encoding of an instruction is as long as its opcode alone says. -/
def Statement (i : Instr) : Prop := (encode i).length = i.op.length

theorem noop : Statement .noop := rfl
theorem halt : Statement .halt := rfl
theorem moveB (src dest : Operand) : Statement (.moveB src dest) := rfl
theorem addB (src dest : Operand) : Statement (.addB src dest) := rfl
theorem subB (src dest : Operand) : Statement (.subB src dest) := rfl
theorem mulB (src dest : Operand) : Statement (.mulB src dest) := rfl
theorem divB (src dest : Operand) : Statement (.divB src dest) := rfl
theorem inc (dest : Operand) : Statement (.inc dest) := rfl
theorem dec (dest : Operand) : Statement (.dec dest) := rfl
theorem cmpB (src dest : Operand) : Statement (.cmpB src dest) := rfl
theorem jmp (target : Byte) : Statement (.jmp target) := rfl
theorem jnz (target : Byte) : Statement (.jnz target) := rfl
theorem jng (target : Byte) : Statement (.jng target) := rfl
theorem jeq (target : Byte) : Statement (.jeq target) := rfl
theorem jne (target : Byte) : Statement (.jne target) := rfl

end Sys2Proof.Laws.EncodedLength
end

