-- ==== Sys2Proof/Tests/Slice0.lean ====
section
/-! SUPPORT. The model's own tests. Expected results come from spec/95_test_vectors.md (the vector's id
stands in the comment), from the worked examples of the rules, or by hand from the rules; and for every
obligation with hypotheses a concrete case that meets them all. -/

namespace Sys2Proof.Tests

open Sys2Proof.Machine

/-! ### Well-formedness: each check with a term it refuses -/

theorem test_wf_operand : (Operand.unassigned 0x03 0x05).wellFormed = false ∧
    (Operand.unassigned 0x04 0x05).wellFormed = true := by decide
theorem test_wf_moveB : (Instr.moveB (.unassigned 0x00 0x05) (.dreg 0)).wellFormed = false ∧
    (Instr.moveB (.imm 5) (.unassigned 0x02 0x05)).wellFormed = false := by decide
theorem test_wf_addB : (Instr.addB (.unassigned 0x00 0x05) (.dreg 0)).wellFormed = false ∧
    (Instr.addB (.imm 5) (.unassigned 0x02 0x05)).wellFormed = false := by decide
theorem test_wf_subB : (Instr.subB (.unassigned 0x00 0x05) (.dreg 0)).wellFormed = false ∧
    (Instr.subB (.imm 5) (.unassigned 0x02 0x05)).wellFormed = false := by decide
theorem test_wf_mulB : (Instr.mulB (.unassigned 0x00 0x05) (.dreg 0)).wellFormed = false ∧
    (Instr.mulB (.imm 5) (.unassigned 0x02 0x05)).wellFormed = false := by decide
theorem test_wf_divB : (Instr.divB (.unassigned 0x00 0x05) (.dreg 0)).wellFormed = false ∧
    (Instr.divB (.imm 5) (.unassigned 0x02 0x05)).wellFormed = false := by decide
theorem test_wf_cmpB : (Instr.cmpB (.unassigned 0x00 0x05) (.dreg 0)).wellFormed = false ∧
    (Instr.cmpB (.imm 5) (.unassigned 0x02 0x05)).wellFormed = false := by decide
theorem test_wf_inc : (Instr.inc (.unassigned 0x01 0x05)).wellFormed = false := by decide
theorem test_wf_dec : (Instr.dec (.unassigned 0x01 0x05)).wellFormed = false := by decide

/-! ### Decoding: words written out from R62, R64 and R66 -/

/-- The instruction at the head of some bytes. -/
def headOf (bytes : List Byte) : Option (Instr × List Byte) :=
  match decode bytes with
  | .ok r => some r
  | .error _ => none

theorem test_decode_noop : headOf [0x00, 0x01] = some (.noop, [0x01]) := by decide
theorem test_decode_halt : headOf [0x01] = some (.halt, []) := by decide
-- MOV-8
theorem test_decode_moveB : headOf [0x02, 0x00, 0x01, 0x02, 0x40] =
    some (.moveB (.dreg 1) (.mem 0x40), []) := by decide
-- ADD-1, its worked example
theorem test_decode_addB : headOf [0x03, 0x03, 0x03, 0x00, 0x01] =
    some (.addB (.imm 3) (.dreg 1), []) := by decide
theorem test_decode_subB : headOf [0x04, 0x03, 0x01, 0x00, 0x02] =
    some (.subB (.imm 1) (.dreg 2), []) := by decide
theorem test_decode_mulB : headOf [0x05, 0x00, 0x01, 0x00, 0x00] =
    some (.mulB (.dreg 1) (.dreg 0), []) := by decide
theorem test_decode_divB : headOf [0x06, 0x03, 0x02, 0x00, 0x00] =
    some (.divB (.imm 2) (.dreg 0), []) := by decide
theorem test_decode_inc : headOf [0x07, 0x02, 0x40] = some (.inc (.mem 0x40), []) := by decide
theorem test_decode_dec : headOf [0x08, 0x00, 0x03] = some (.dec (.dreg 3), []) := by decide
-- a refused form decodes: an address-register source and an unassigned destination tag
theorem test_decode_cmpB : headOf [0x09, 0x01, 0x07, 0x09, 0xAA] =
    some (.cmpB (.areg 7) (.unassigned 0x09 0xAA), []) := by decide
theorem test_decode_jmp : headOf [0x0A, 0x05] = some (.jmp 0x05, []) := by decide
theorem test_decode_jnz : headOf [0x0B, 0x0C] = some (.jnz 0x0C, []) := by decide
theorem test_decode_jng : headOf [0x0C, 0x21] = some (.jng 0x21, []) := by decide
theorem test_decode_jeq : headOf [0x0D, 0x11] = some (.jeq 0x11, []) := by decide
theorem test_decode_jne : headOf [0x0E, 0x05] = some (.jne 0x05, []) := by decide
-- SYS-4, SYS-5; and a truncated instruction
theorem test_decode_rejects : headOf [0x0F, 0x00, 0x00] = none ∧ headOf [0xFF] = none ∧
    headOf [0x02, 0x03, 0x05, 0x00] = none ∧ headOf [] = none := by decide

/-- R79's own example, a mnemonic, and two texts that resolve to nothing. -/
theorem test_lookupText : lookupText "0A" = some Op.jmp.descriptor ∧
    lookupText "cmp.b" = some Op.cmpB.descriptor ∧ lookupText "0F" = none ∧
    lookupText "move" = none := by decide

/-- The opcode table's "match" numbers (byte 0 most significant). -/
theorem test_decodeTableWord : decodeTableWord 8 0x01 = some .halt ∧
    decodeTableWord 16 0x0A05 = some (.jmp 0x05) ∧
    decodeTableWord 24 0x070240 = some (.inc (.mem 0x40)) ∧
    decodeTableWord 40 0x0200010240 = some (.moveB (.dreg 1) (.mem 0x40)) ∧
    decodeTableWord 8 0x0F = none := by decide

/-! ### Stepping -/

/-- A machine with `MEM_CAP = cap + 1` and `NUM_DREGS = regs + 1`: bytes at pc, and some registers. -/
def machine (cap regs : Fin 256) (pc : PcWord) (bytes dregs : List Byte) : State :=
  { State.fresh { lastAddr := cap, lastDreg := regs, divRound := .trunc } pc with
    mem := Memory.storeAll [] pc.toNat bytes
    dregs := dregs ++ List.replicate (regs.val + 1 - dregs.length) 0x00 }

/-- The default parameters, the bytes at address 0. -/
def vec (bytes dregs : List Byte) : State := machine 255 7 0 bytes dregs

/-- The same with flags. -/
def withNZE (n z e : Bool) (s : State) : State :=
  s.setFlags { n := n, z := z, c := false, v := false, e := e }

/-- The state after one step. -/
def after (s : State) : Option State :=
  match step s with
  | .next t => some t
  | .fault _ => none
  | .refused _ => none

/-- `d0`, the flags N, Z, E, and pc after one step. -/
def seen (s : State) : Option (Byte × Bool × Bool × Bool × Nat) :=
  (after s).map fun t => (t.readDreg 0, t.flags.n, t.flags.z, t.flags.e, t.pc.toNat)

/-- The cell at `a` after one step. -/
def cellAfter (a : Nat) (s : State) : Option Byte := (after s).map fun t => t.readMem a

/-- The fault record after one step: cause, space, info. -/
def faultAfter (s : State) : Option (FaultCause × FaultSpace × Nat) :=
  (after s).map fun t => (t.fault.cause, t.fault.space, t.fault.info.toNat)

-- SYS-1
theorem test_noop : seen (vec [0x00] [9]) = some (9, false, false, false, 1) := by decide
-- SYS-3
theorem test_halt : (after (machine 255 7 255 [0x01] [])).map (fun t => (t.status, t.pc)) =
    some (.halted, 256) := by decide
-- MOV-4 on d0, MOV-3
theorem test_moveB_register : seen (vec [0x02, 0x03, 0x80, 0x00, 0x00] []) =
      some (0x80, true, false, false, 5) ∧
    seen (vec [0x02, 0x03, 0x00, 0x00, 0x00] [0x33]) = some (0, false, true, false, 5) := by decide
-- MOV-9, MOV-10
theorem test_moveB_memory : cellAfter 0xFF (vec [0x02, 0x03, 0xC3, 0x02, 0xFF] []) = some 0xC3 ∧
    cellAfter 0 (vec [0x02, 0x03, 0x01, 0x02, 0x00] []) = some 0x01 := by decide
-- ADD-3, ADD-4
theorem test_addB : seen (vec [0x03, 0x03, 0x01, 0x00, 0x00] [0xFF]) =
      some (0, false, true, false, 5) ∧
    seen (vec [0x03, 0x00, 0x01, 0x00, 0x00] [0x80, 0x80]) = some (0, false, true, true, 5) := by decide
-- SUB-5, SUB-3
theorem test_subB : seen (vec [0x04, 0x00, 0x01, 0x00, 0x00] [0x03, 0x0A]) =
      some (0xF9, true, false, false, 5) ∧
    seen (vec [0x04, 0x00, 0x00, 0x00, 0x00] [0x55]) = some (0, false, true, true, 5) := by decide
-- MUL-4, MUL-7
theorem test_mulB : seen (vec [0x05, 0x03, 0xFF, 0x00, 0x00] [0x80]) =
      some (0x80, true, false, false, 5) ∧
    seen (vec [0x05, 0x03, 0xFD, 0x00, 0x00] [0x05]) = some (0xF1, true, false, false, 5) := by decide
-- DIV-8, DIV-6
theorem test_divB : seen (vec [0x06, 0x00, 0x01, 0x00, 0x00] [0x2A, 0xFC]) =
      some (0xF6, true, false, false, 5) ∧
    seen (vec [0x06, 0x03, 0xFF, 0x00, 0x00] [0x80]) = some (0x80, true, false, false, 5) := by decide
-- the note under DIV-15: DIV-8 under DIV_ROUND = floor gives 0xF5
theorem test_divB_floor :
    let s := vec [0x06, 0x00, 0x01, 0x00, 0x00] [0x2A, 0xFC]
    seen { s with cfg := { s.cfg with divRound := .floor } } =
      some (0xF5, true, false, false, 5) := by decide
-- INC-1, INC-6
theorem test_inc : seen (withNZE false false true (vec [0x07, 0x00, 0x00] [0x03])) =
      some (0x04, false, false, true, 3) ∧
    seen (withNZE false true false (vec [0x07, 0x03, 0x7F] [])) =
      some (0, true, false, false, 3) := by decide
-- DEC-2, DEC-5
theorem test_dec : seen (vec [0x08, 0x00, 0x00] [0x00]) = some (0xFF, true, false, false, 3) ∧
    cellAfter 0x41 (vec [0x08, 0x02, 0x41] []) = some 0xFF := by decide
-- CMP-4, CMP-7
theorem test_cmpB : seen (vec [0x09, 0x03, 0x9C, 0x00, 0x00] [0x64]) =
      some (0x64, true, false, false, 5) ∧
    seen (vec [0x09, 0x00, 0x01, 0x00, 0x00] [0x80, 0x7F]) =
      some (0x80, false, false, false, 5) := by decide
-- BR-1, BR-11
theorem test_jmp : seen (vec [0x0A, 0x05] []) = some (0, false, false, false, 5) ∧
    seen (machine 127 7 0 [0x0A, 0xC8] []) = some (0, false, false, false, 200) := by decide
-- BR-3, BR-4
theorem test_jnz : seen (withNZE false true false (vec [0x0B, 0x0C] [])) =
      some (0, false, true, false, 12) ∧
    seen (vec [0x0B, 0x0C] []) = some (0, false, false, false, 2) := by decide
-- BR-5, BR-6
theorem test_jng : seen (withNZE true false false (vec [0x0C, 0x21] [])) =
      some (0, true, false, false, 33) ∧
    seen (withNZE false true false (vec [0x0C, 0x21] [])) = some (0, false, true, false, 2) := by decide
-- BR-7, BR-8
theorem test_jeq : seen (withNZE false false true (vec [0x0D, 0x11] [])) =
      some (0, false, false, true, 17) ∧
    seen (withNZE false true false (vec [0x0D, 0x11] [])) = some (0, false, true, false, 2) := by decide
-- BR-9, BR-10
theorem test_jne : seen (vec [0x0E, 0x05] []) = some (0, false, false, false, 5) ∧
    seen (withNZE false false true (vec [0x0E, 0x05] [])) = some (0, false, false, true, 2) := by decide
-- MOV-19, MOV-20, MOV-22 (two failing checks each: the order of R113), DIV-14, DIV-15
theorem test_faultOrder :
    [machine 63 7 0 [0x02, 0x00, 0x09, 0x02, 0x40] [], vec [0x02, 0x02, 0x10, 0x01, 0x00] [],
      vec [0x02, 0x00, 0x09, 0x03, 0x05] [], vec [0x06, 0x03, 0x00, 0x02, 0x40] [],
      vec [0x06, 0x03, 0x00, 0x00, 0x08] []].map faultAfter =
    [some (.outOfBounds, .register, 9), some (.unsupportedAddressingMode, .none, 2),
      some (.unsupportedAddressingMode, .none, 3), some (.unsupportedAddressingMode, .none, 2),
      some (.outOfBounds, .register, 8)] := by decide
-- DIV-11: the flags set before a fault stay
theorem test_faultKeepsFlags :
    seen (withNZE true false true (vec [0x06, 0x03, 0x00, 0x00, 0x00] [0x09])) =
      some (0x09, true, false, true, 0) := by decide
/-- The word of `dec d0` placed where the next step fetches it. -/
theorem test_withFetchWord : (after (State.reset.withFetchWord 24 0x080000)).map
    (fun t => (t.readDreg 0, t.pc)) = some (0xFF, 3) := by decide

/-! ### Each clause of the instructions' rules at its boundary

`MEM_CAP = 64`, `NUM_DREGS = 4`; the last cell is 0x3F, the last register 3. The machines meet the
hypotheses of the statement, and the fault records say which clause each of them runs through. -/

/-- The fault record of a step that took no fault. -/
def fine : Option (FaultCause × FaultSpace × Nat) := some (.none, .none, 0)
/-- A refused operand form. -/
def badForm (tag : Nat) : Option (FaultCause × FaultSpace × Nat) :=
  some (.unsupportedAddressingMode, .none, tag)
/-- An access out of bounds. -/
def outside (space : FaultSpace) (value : Nat) : Option (FaultCause × FaultSpace × Nat) :=
  some (.outOfBounds, space, value)

/-- Bytes at `pc` of a machine with 64 cells and 4 registers. -/
def small (pc : PcWord) (bytes : List Byte) : State := machine 63 3 pc bytes [0x05, 0x00, 0x80, 0xFF]

/-- Operand bytes of format B that each run through another clause when the destination is a register,
with the opcode last in memory (a fetch past the end) and an instruction that ends at the last cell. -/
def twoOperandCases (opcode : Byte) : List State :=
  [small 60 [opcode, 0x03, 0x01, 0x00], small 63 [opcode], small 0 [opcode, 0x01, 0x05, 0x00, 0x00],
    small 0 [opcode, 0x04, 0x05, 0x00, 0x00], small 0 [opcode, 0x03, 0x05, 0x01, 0x00],
    small 0 [opcode, 0x03, 0x05, 0x04, 0x00], small 0 [opcode, 0x00, 0x04, 0x00, 0x00],
    small 0 [opcode, 0x03, 0x05, 0x00, 0x04], small 0 [opcode, 0x00, 0x03, 0x00, 0x03],
    small 59 [opcode, 0x03, 0x05, 0x00, 0x03]]

/-- The clauses of `twoOperandCases`. -/
def twoOperandFaults : List (Option (FaultCause × FaultSpace × Nat)) :=
  [outside .fetch 64, outside .fetch 64, badForm 1, badForm 4, badForm 1, badForm 4,
    outside .register 4, outside .register 4, fine, fine]

/-- `move.b` only: an immediate destination, and a cell destination beyond and at the last address. -/
def moveCases : List State :=
  twoOperandCases 0x02 ++ [small 0 [0x02, 0x03, 0x05, 0x03, 0x00], small 0 [0x02, 0x03, 0x05, 0x02, 0x40],
    small 0 [0x02, 0x00, 0x03, 0x02, 0x3F]]

theorem witness_MoveFollowsItsRule : ∀ s ∈ moveCases, OpcodeAt s 0x02 := by
  simp only [OpcodeAt]; decide
theorem test_move_clauses : moveCases.map faultAfter =
    twoOperandFaults ++ [badForm 3, outside .data 64, fine] := by decide

theorem witness_AddSubMulFollowTheirRules : (∀ s ∈ twoOperandCases 0x03, OpcodeAt s 0x03) ∧
    (∀ s ∈ twoOperandCases 0x04, OpcodeAt s 0x04) ∧
    (∀ s ∈ twoOperandCases 0x05, OpcodeAt s 0x05) := by
  simp only [OpcodeAt]; decide
theorem test_addSubMul_clauses : (twoOperandCases 0x03).map faultAfter = twoOperandFaults ∧
    (twoOperandCases 0x04).map faultAfter = twoOperandFaults ∧
    (twoOperandCases 0x05).map faultAfter = twoOperandFaults ∧
    faultAfter (small 0 [0x04, 0x03, 0x05, 0x02, 0x00]) = badForm 2 := by decide

/-- `div.b`: the zero divisor as an immediate and in a register (d1 is zero). -/
def divCases : List State :=
  twoOperandCases 0x06 ++ [small 0 [0x06, 0x03, 0x00, 0x00, 0x00], small 0 [0x06, 0x00, 0x01, 0x00, 0x00]]
theorem witness_DivFollowsItsRule : ∀ s ∈ divCases, OpcodeAt s 0x06 := by
  simp only [OpcodeAt]; decide
theorem test_div_clauses : divCases.map faultAfter =
    twoOperandFaults ++ [some (.divisionByZero, .none, 0), some (.divisionByZero, .none, 0)] := by decide

/-- `inc` and `dec`: fetch past the end, forms, register and cell indices at both sides of the limits. -/
def oneOperandCases (opcode : Byte) : List State :=
  [small 62 [opcode, 0x00], small 0 [opcode, 0x01, 0x00], small 0 [opcode, 0x04, 0x00],
    small 0 [opcode, 0x00, 0x04], small 0 [opcode, 0x02, 0x40], small 61 [opcode, 0x00, 0x03],
    small 0 [opcode, 0x02, 0x3F], small 0 [opcode, 0x03, 0xFF]]
theorem witness_IncDecFollowTheirRules : (∀ s ∈ oneOperandCases 0x07, OpcodeAt s 0x07) ∧
    (∀ s ∈ oneOperandCases 0x08, OpcodeAt s 0x08) := by
  simp only [OpcodeAt]; decide
theorem test_incDec_clauses :
    [0x07, 0x08].map (fun op => (oneOperandCases op).map faultAfter) =
      List.replicate 2 [outside .fetch 64, badForm 1, badForm 4, outside .register 4,
        outside .data 64, fine, fine, fine] := by decide

/-- `cmp.b` only: a cell destination, and an immediate one. -/
def compareCases : List State :=
  twoOperandCases 0x09 ++ [small 0 [0x09, 0x03, 0x05, 0x02, 0x00], small 0 [0x09, 0x03, 0x05, 0x03, 0xFF]]
theorem witness_CompareFollowsItsRule : ∀ s ∈ compareCases, OpcodeAt s 0x09 := by
  simp only [OpcodeAt]; decide
theorem test_compare_clauses : compareCases.map faultAfter =
    twoOperandFaults ++ [badForm 2, fine] := by decide

theorem witness_SubAndCompareLeaveZEqualToE :
    (∃ t, OpcodeAt (small 0 [0x04, 0x00, 0x02, 0x00, 0x02]) 0x04 ∧
      step (small 0 [0x04, 0x00, 0x02, 0x00, 0x02]) = .next t ∧ t.status ≠ .faulted) ∧
    ∃ t, OpcodeAt (small 0 [0x09, 0x03, 0x05, 0x03, 0xFF]) 0x09 ∧
      step (small 0 [0x09, 0x03, 0x05, 0x03, 0xFF]) = .next t ∧ t.status ≠ .faulted :=
  ⟨⟨_, ⟨rfl, by decide, by decide⟩, rfl, by decide⟩, ⟨_, ⟨rfl, by decide, by decide⟩, rfl, by decide⟩⟩

/-- Branches: the target byte beyond the end, the last place a branch fits, a target outside memory. -/
def branchCases (opcode : Byte) : List State :=
  [small 63 [opcode], small 62 [opcode, 0x3F], small 0 [opcode, 0x40]]
theorem witness_BranchesFollowTheirRules : ∀ opcode ∈ ([0x0A, 0x0B, 0x0C, 0x0D, 0x0E] : List Byte),
    ∀ s ∈ branchCases opcode, OpcodeAt s opcode := by
  simp only [OpcodeAt]; decide
theorem test_branch_clauses : (branchCases 0x0A).map faultAfter = [outside .fetch 64, fine, fine] ∧
    ((after (small 0 [0x0A, 0x40])).bind after).map (fun u => (u.fault.info, u.fault.pc)) =
      some (0x40, 0x40) := by decide
theorem witness_NoopAndHaltFollowTheirRules : OpcodeAt (small 63 [0x00]) 0x00 ∧
    OpcodeAt (small 63 [0x01]) 0x01 := by
  simp only [OpcodeAt]; decide

/-! ### Witnesses: the hypotheses of the other statements can be met -/

/-- One cell: an image that fills memory fits, one byte more does not, `START` just outside memory. -/
theorem witness_LoadConstructsTheCoreOrIsRefused :
    let s := machine 0 0 0 [0x01] []
    [0x00].length ≤ s.cfg.memCap ∧ s.cfg.memCap ≤ (1 : PcWord).toNat ∧
      s.cfg.memCap < [0x00, 0x01].length := by decide
theorem witness_DecodeInvertsEncode :
    (Instr.cmpB (.unassigned 0x04 0x00) (.imm 0xFF)).wellFormed = true := by decide
theorem witness_DecodedBytesAreTheEncoding :
    decode [0x07, 0x04, 0x80, 0x33] = .ok (.inc (.unassigned 0x04 0x80), [0x33]) := rfl
theorem witness_EveryFieldByteSurvivesDecoding : ([] : List Byte).length + 1 = Op.halt.length ∧
    [0xFF].length + 1 = Op.jne.length ∧ [0x04, 0xFF].length + 1 = Op.dec.length ∧
    [0x00, 0x01, 0x02, 0x03].length + 1 = Op.moveB.length := by decide
theorem witness_TagByteNamesTheOperandKind : 0x04 ≤ (0x04 : Byte).toNat ∧
    0x04 ≤ (0xFF : Byte).toNat := by decide
theorem witness_StepRunsTheInstructionAtPc :
    let s := small 61 [0x07, 0x03, 0xFF]
    let i := Instr.inc (.imm 0xFF)
    s.status = .running ∧ i.wellFormed = true ∧
      ∀ k (h : k < (encode i).length),
        s.pc.toNat + k < s.cfg.memCap ∧ s.readMem (s.pc.toNat + k) = (encode i)[k] := by decide
theorem witness_UnassignedOpcodeFaults : OpcodeAt (small 63 [0x0F]) 0x0F ∧
    OpcodeAt (small 0 [0xFF]) 0xFF ∧ 0x0F ≤ (0x0F : Byte).toNat := by
  simp only [OpcodeAt]; decide
theorem witness_FetchOutsideMemoryFaults :
    (small 64 []).status = .running ∧ (small 64 []).cfg.memCap ≤ (small 64 []).pc.toNat ∧
    OpcodeAt (small 63 [0x0A]) Op.jmp.code ∧
    (small 63 [0x0A]).cfg.memCap < (small 63 [0x0A]).pc.toNat + Op.jmp.length := by
  simp only [OpcodeAt]; decide

/-- A machine that has halted. -/
def halted : State := { vec [0x01] [] with status := .halted, pc := 1 }
/-- A machine in `Faulted`. -/
def faulted : State := (vec [0x0F] []).raise (.unknownOpcode 0x0F)

theorem witness_TerminalStatesStay : halted.status = .halted ∧ faulted.status = .faulted := by decide
theorem witness_FaultsArePrecise : Transition (vec [0x0F] []) faulted ∧ faulted.status = .faulted :=
  ⟨⟨rfl, rfl⟩, rfl⟩
theorem witness_EachFaultComesFromItsInstructions : ∃ t,
    Transition (vec [0x06, 0x03, 0x00, 0x00, 0x00] [9]) t ∧ t.status = .faulted :=
  ⟨_, ⟨rfl, rfl⟩, rfl⟩
theorem witness_ExecutionStateTransitions : (∃ t, Transition (vec [0x01] []) t ∧ t.status = .halted) ∧
    halted.status ≠ .running ∧ step halted = .next halted := ⟨⟨_, ⟨rfl, rfl⟩, rfl⟩, by decide, rfl⟩
theorem witness_StepKeepsTheInvariant : ∃ t, (vec [0x07, 0x02, 0x40] []).Inv ∧
    step (vec [0x07, 0x02, 0x40] []) = .next t :=
  ⟨_, ⟨by decide, by decide, by decide, rfl, rfl, fun _ => rfl, fun h => by cases h⟩, rfl⟩
theorem witness_LoadEstablishesTheInvariant : ∃ t, faulted.load [0x00, 0x01] 0 = .next t := ⟨_, rfl⟩
theorem witness_CarryAndOverflowAreNeverSet : ∃ s t, Reachable Config.default s ∧ step s = .next t ∧
    Reachable Config.default t := by
  have h : Reachable Config.default _ := .loaded halted _ [0x03, 0x03, 0xFF, 0x00, 0x00] 0 rfl rfl
  exact ⟨_, _, h, rfl, .stepped _ _ h rfl⟩
theorem witness_StepsKeepTheParameters : ∃ t, step (small 0 [0x0A, 0x40]) = .next t := ⟨_, rfl⟩
theorem witness_MoveToRegisterCompletes :
    SourceValue (small 0 []) (.imm 0x80) 0x80 ∧ (0x03 : Byte).toNat < (small 0 []).cfg.numDregs :=
  ⟨rfl, by decide⟩
theorem witness_MoveToMemoryCompletes :
    SourceValue (small 0 []) (.dreg 3) 0xFF ∧ (0x3F : Byte).toNat < (small 0 []).cfg.memCap :=
  ⟨⟨by decide, rfl⟩, by decide⟩
theorem witness_AddCompletes :
    SourceValue (small 0 []) (.dreg 2) 0x80 ∧ (0x02 : Byte).toNat < (small 0 []).cfg.numDregs :=
  ⟨⟨by decide, rfl⟩, by decide⟩
theorem witness_SubCompletes :
    SourceValue (small 0 []) (.imm 0xFF) 0xFF ∧ (0x00 : Byte).toNat < (small 0 []).cfg.numDregs :=
  ⟨rfl, by decide⟩
theorem witness_MulCompletes :
    SourceValue (small 0 []) (.dreg 0) 0x05 ∧ (0x03 : Byte).toNat < (small 0 []).cfg.numDregs :=
  ⟨⟨by decide, rfl⟩, by decide⟩
theorem witness_DivCompletes : SourceValue (small 0 []) (.dreg 3) 0xFF ∧
    (0x02 : Byte).toNat < (small 0 []).cfg.numDregs ∧ (0xFF : Byte) ≠ 0x00 :=
  ⟨⟨by decide, rfl⟩, by decide, by decide⟩
theorem witness_DivisionTableOfTheSpec : (vec [] [0x80]).cfg.divRound = .trunc ∧
    (vec [] [0x80]).readDreg 0 = 0x80 ∧ (vec [] [0x2A]).readDreg 0 = 0x2A := by decide
theorem witness_IncCompletes : (0x03 : Byte).toNat < (small 0 []).cfg.numDregs ∧
    (0x3F : Byte).toNat < (small 0 []).cfg.memCap := by decide
theorem witness_DecCompletes : (0x00 : Byte).toNat < (machine 0 0 0 [] []).cfg.numDregs ∧
    (0x00 : Byte).toNat < (machine 0 0 0 [] []).cfg.memCap := by decide
theorem witness_CompareCompletes :
    SourceValue (small 0 []) (.imm 0x9C) 0x9C ∧ SourceValue (small 0 []) (.dreg 0) 0x05 :=
  ⟨rfl, by decide, rfl⟩
/-- A difference inside the signed range, and 100 - (-100) outside it (CMP-4). -/
theorem witness_CompareFlagsTellTheOrder :
    SourceValue (small 0 []) (.imm 0x9C) 0x9C ∧ SourceValue (small 0 []) (.imm 0x64) 0x64 ∧
    ¬ ((0x64 : Byte).toInt - (0x9C : Byte).toInt ≤ 127) ∧
    -128 ≤ (0x00 : Byte).toInt - (0x7F : Byte).toInt :=
  ⟨rfl, rfl, by decide, by decide⟩
theorem witness_OnlyMemoryDestinationsChangeMemory : ∃ t,
    Transition (vec [0x07, 0x02, 0x40] []) t ∧ t.readMem 0x40 ≠ (vec [0x07, 0x02, 0x40] []).readMem 0x40 :=
  ⟨_, ⟨rfl, rfl⟩, by decide⟩
theorem witness_OnlyRegisterDestinationsChangeRegisters : ∃ t,
    Transition (vec [0x05, 0x03, 0x02, 0x00, 0x07] [1, 1, 1, 1, 1, 1, 1, 1]) t ∧
    t.readDreg 7 ≠ (vec [0x05, 0x03, 0x02, 0x00, 0x07] [1, 1, 1, 1, 1, 1, 1, 1]).readDreg 7 :=
  ⟨_, ⟨rfl, rfl⟩, by decide⟩
theorem witness_OnlyDataInstructionsChangeFlags : ∃ t,
    Transition (vec [0x09, 0x03, 0x00, 0x03, 0x00] []) t ∧
    t.flags ≠ (vec [0x09, 0x03, 0x00, 0x03, 0x00] []).flags := ⟨_, ⟨rfl, rfl⟩, by decide⟩
theorem witness_PcAdvancesWithoutWrapping : ∃ t,
    Transition (machine 255 7 255 [0x00] []) t ∧ t.status ≠ .faulted := ⟨_, ⟨rfl, rfl⟩, by decide⟩
/-- Program P5. -/
theorem witness_OverwrittenOpcodeTakesEffectAtTheNextFetch :
    let s := small 59 [0x02, 0x03, 0x01, 0x02, 0x3B]
    OpcodeAt s 0x02 ∧ s.pc.toNat + 5 ≤ s.cfg.memCap ∧ byteAt s 1 = 0x03 ∧ byteAt s 2 = 0x01 ∧
      byteAt s 3 = 0x02 ∧ (byteAt s 4).toNat = s.pc.toNat := by
  simp only [OpcodeAt]; decide
theorem witness_RunEndsInAtMostOneState : ∃ t, runFor 2 (vec [0x00, 0x01] []) = .next t ∧
    t.status ≠ .running ∧ EndsIn (vec [0x00, 0x01] []) t := ⟨_, rfl, by decide, 2, rfl, by decide⟩
theorem witness_JumpToItselfNeverEnds :
    let s := small 62 [0x0A, 0x3E]
    OpcodeAt s 0x0A ∧ s.pc.toNat + 2 ≤ s.cfg.memCap ∧ (byteAt s 1).toNat = s.pc.toNat := by
  simp only [OpcodeAt]; decide
/-- All hypotheses of one state: from the middle of memory, and from its very end. -/
theorem witness_ZeroedMemoryRunsOffTheEnd : ∀ s ∈ [small 10 [], small 64 []],
    s.status = .running ∧ s.pc.toNat ≤ s.cfg.memCap ∧
    ∀ a, s.pc.toNat ≤ a → a < s.cfg.memCap → s.readMem a = 0x00 := by
  intro s hs
  simp only [List.mem_cons, List.not_mem_nil, or_false] at hs
  rcases hs with rfl | rfl
  · exact ⟨rfl, by decide, fun _ _ _ => rfl⟩
  · exact ⟨rfl, by decide, fun _ _ _ => rfl⟩
/-- Two machines that differ outside memory, where the host sees nothing. -/
theorem witness_StepDependsOnlyOnWhatInspectShows :
    let s := small 0 [0x07, 0x02, 0x3F]
    let s' := { s with mem := Memory.store s.mem 64 0xAA }
    s ≠ s' ∧ s.cfg = s'.cfg ∧ s.inspect = s'.inspect ∧
      (after s).isSome = true ∧ (after s').isSome = true := by decide
theorem witness_CanonicalMemoriesThatReadAlikeAreEqual :
    Memory.wf (Memory.storeAll [] 3 [0x01, 0x00, 0x02]) = true ∧ Memory.wf [(3, 1), (5, 2)] = true ∧
    ∀ a, Memory.lookup (Memory.storeAll [] 3 [0x01, 0x00, 0x02]) a = Memory.lookup [(3, 1), (5, 2)] a :=
  ⟨by decide, by decide, fun _ => rfl⟩

end Sys2Proof.Tests
end

section
/-! The execution state and the machine invariant (10_state.md): what every step keeps. -/

namespace Sys2Proof.Machine

/-! ### Every step -/

/-- R34, R36: a step that answers `t` is a transition, or it was requested in a terminal state. -/
theorem step_next_cases {s t : State} (h : step s = .next t) :
    Transition s t ∨ (s.status ≠ .running ∧ t = s) := by
  by_cases hs : s.status = .running
  · exact .inl ⟨hs, h⟩
  · rw [step_terminal s hs] at h
    cases h
    exact .inr ⟨hs, rfl⟩

/-- R36, R76: a step always answers a next state. -/
theorem exists_step_eq_next (s : State) : ∃ t, step s = .next t := by
  by_cases hs : s.status = .running
  · rcases step_running_cases s hs with ⟨r, -, h⟩ | ⟨op, -, -, h⟩
    · exact ⟨_, h⟩
    · rcases exec_cases (s.instrAt op) s with ⟨r, h', -⟩ | ⟨t, h', -⟩
      · exact ⟨_, h.trans h'⟩
      · exact ⟨t, h.trans h'⟩
  · exact ⟨s, step_terminal s hs⟩

/-- Settles O13. -/
theorem everyStepHasANextState : Obligations.EveryStepHasANextState := exists_step_eq_next

/-- Settles O12. -/
theorem terminalStatesStay : Obligations.TerminalStatesStay := by
  intro s hs
  have hne : s.status ≠ .running := by rcases hs with h | h <;> simp [h]
  exact ⟨step_terminal s hne, fun _ ht => hne ht.1⟩

/-- R107: a step at a `halt` enters `Halted`; it has no operand that could fault. -/
theorem step_halt {s : State} (h : OpcodeAt s Op.halt.code) :
    step s = .next { s.advance .halt with status := .halted } := by
  have hlen : s.pc.toNat + Op.halt.length ≤ s.cfg.memCap := h.2.1
  exact step_opcodeAt h hlen

/-- R33: an instruction that completes enters `Halted` exactly when it is `halt`. -/
theorem Completed.halted_iff {s t : State} {op : Op} (hs : s.status = .running)
    (h : Completed s t op) : t.status = .halted ↔ op = .halt := by
  rw [h.status, hs]
  split <;> simp [*]

/-- R33: a transition ends in `Halted` exactly when the instruction at pc is `halt`. -/
theorem Transition.halted_iff {s t : State} (ht : Transition s t) :
    t.status = .halted ↔ OpcodeAt s Op.halt.code := by
  constructor
  · intro hh
    rcases transition_cases ht with ⟨r, -, rfl⟩ | ⟨op, hat, -, -, hc⟩
    · simp at hh
    · obtain rfl : op = .halt := (hc.halted_iff ht.1).1 hh
      exact hat
  · intro hat
    cases (step_halt hat).symm.trans ht.2
    rfl

/-- R33, R37: a transition ends in `Faulted` exactly when it is a raise, since an instruction that
completes does not fault. -/
theorem Transition.faulted_iff {s t : State} (ht : Transition s t) :
    t.status = .faulted ↔ ∃ r : Raise, r.cause ≠ .none ∧ t = s.raise r := by
  constructor
  · intro hf
    rcases transition_cases ht with ⟨r, hr, rfl⟩ | ⟨op, -, -, -, hc⟩
    · exact ⟨r, fault_cause_ne_none hr, rfl⟩
    · exact absurd hf (hc.not_faulted ht.1)
  · rintro ⟨r, -, rfl⟩
    rfl

/-- R35: only a fault writes the fault record. -/
theorem Transition.fault_eq {s t : State} (ht : Transition s t) (hf : t.status ≠ .faulted) :
    t.fault = s.fault := by
  rcases transition_cases ht with ⟨r, -, rfl⟩ | ⟨op, -, -, -, hc⟩
  · exact absurd rfl hf
  · exact hc.fault

/-- Settles O14: a raise is all that a transition into `Faulted` does. -/
theorem faultsArePrecise : Obligations.FaultsArePrecise := by
  intro s t ht hf
  obtain ⟨r, hr, rfl⟩ := ht.faulted_iff.1 hf
  exact ⟨r.cause, r.space, r.info, hr, rfl⟩

/-- Settles O16. -/
theorem executionStateTransitions : Obligations.ExecutionStateTransitions := by
  refine fun s t => ⟨fun ht => ⟨ht.halted_iff, ht.faulted_iff, ht.fault_eq⟩, fun hs h => ?_⟩
  rcases step_next_cases h with ht | ⟨-, rfl⟩
  · exact absurd ht.1 hs
  · rfl

/-- Settles O21. -/
theorem stepsKeepTheParameters : Obligations.StepsKeepTheParameters := by
  intro s t h
  rcases step_next_cases h with ht | ⟨-, rfl⟩
  · rcases transition_cases ht with ⟨r, -, rfl⟩ | ⟨op, -, -, -, hc⟩
    · rfl
    · exact hc.cfg
  · rfl

/-! ### What a raise records is legal (R35) -/

/-- R7: the address space has at most 256 cells. -/
theorem memCap_le (c : Config) : c.memCap ≤ 256 := c.lastAddr.isLt

/-- R64, R65: every byte below 0x0F is a row's opcode. -/
theorem le_toNat_of_lookupOpcode_eq_none {b : Byte} (h : lookupOpcode b = none) : 0x0F ≤ b.toNat := by
  have rows : ∀ n < 0x0F, ∃ op ∈ Op.all, op.code.toNat = n := by decide
  by_contra hlt
  obtain ⟨op, -, hop⟩ := rows b.toNat (by omega)
  rw [← BitVec.eq_of_toNat_eq hop, lookupOpcode_code] at h
  simp at h

/-- R35, R37: the record that the raise `r` writes at `pc`. -/
def Raise.record (r : Raise) (pc : PcWord) : FaultRecord :=
  { cause := r.cause, pc := pc, space := r.space, info := r.info }

/-- R35, R110: what `OutOfBounds` records of an address or index is the number itself. -/
theorem toNat_outOfBounds_info (space : FaultSpace) {value : Nat} (h : value < 2 ^ 16) :
    (Raise.outOfBounds space value).info.toNat = value := by
  simpa [Raise.outOfBounds] using h

theorem FetchFault.legal {s : State} {r : Raise} (h : FetchFault s r) :
    (r.record s.pc).legal s.cfg := by
  have hcap := memCap_le s.cfg
  rcases h with ⟨hpc, rfl⟩ | ⟨-, hop, rfl⟩ | ⟨op, -, -, rfl⟩
  · exact hpc.trans_eq (toNat_outOfBounds_info .fetch s.pc.isLt).symm
  · have hinfo : (Raise.unknownOpcode (byteAt s 0)).info.toNat = (byteAt s 0).toNat := toNat_zext16 _
    exact ⟨(le_toNat_of_lookupOpcode_eq_none hop).trans_eq hinfo.symm,
      hinfo.trans_le (Nat.le_of_lt_succ (byteAt s 0).isLt)⟩
  · exact (toNat_outOfBounds_info .fetch (by omega)).ge

theorem OperandFault.legal {cfg : Config} {r : Raise} (h : OperandFault cfg r) (pc : PcWord) :
    (r.record pc).legal cfg := by
  rcases h with ⟨tag, rfl⟩ | ⟨i, hi, rfl⟩ | ⟨a, ha, rfl⟩
  · have hinfo : (Raise.unsupportedAddressingMode tag).info.toNat = tag.toNat := toNat_zext16 tag
    exact hinfo.trans_le (Nat.le_of_lt_succ tag.isLt)
  · have hlt := i.isLt
    have hinfo := toNat_outOfBounds_info .register (value := i.toNat) (by omega)
    exact ⟨hi.trans_eq hinfo.symm, hinfo.trans_le (Nat.le_of_lt_succ hlt)⟩
  · have hlt := a.isLt
    have hinfo := toNat_outOfBounds_info .data (value := a.toNat) (by omega)
    exact ⟨ha.trans_eq hinfo.symm, hinfo.trans_le (Nat.le_of_lt_succ hlt)⟩

/-- R35, R108: whatever a step raises, the record is legal for its cause. -/
theorem fault_record_legal {s : State} {r : Raise} (h : FetchFault s r ∨ ExecuteFault s.cfg r) :
    (r.record s.pc).legal s.cfg := by
  rcases h with h | h | rfl
  · exact h.legal
  · exact h.legal s.pc
  · exact rfl

/-! ### The invariant -/

/-- R37: a fault keeps the invariant when its record is legal. -/
theorem State.Inv.raise {s : State} (hs : s.Inv) {r : Raise} (hr : (r.record s.pc).legal s.cfg) :
    (s.raise r).Inv where
  mem_canonical := hs.mem_canonical
  mem_inside := hs.mem_inside
  dregs_count := hs.dregs_count
  carry_clear := hs.carry_clear
  overflow_clear := hs.overflow_clear
  fault_clear := fun h => absurd rfl h
  fault_set := fun _ => ⟨rfl, hr⟩

/-- R43, R45: writing a place that exists keeps memory canonical and inside the address space. -/
theorem State.Inv.writePlace_mem {s : State} (hs : s.Inv) {p : Place} (hp : p.inRange s.cfg)
    (r : Byte) : Memory.wf (s.writePlace p r).mem = true ∧
      ∀ cell ∈ (s.writePlace p r).mem, cell.1 < s.cfg.memCap := by
  cases p with
  | dreg i => exact ⟨hs.mem_canonical, hs.mem_inside⟩
  | mem a => exact ⟨Memory.wf_store _ _ _ hs.mem_canonical, Memory.inside_store r hp hs.mem_inside⟩
  | imm v => exact ⟨hs.mem_canonical, hs.mem_inside⟩

/-- R16: writing a place that exists keeps the number of registers. -/
theorem State.Inv.writePlace_dregs {s : State} (hs : s.Inv) {p : Place} (hp : p.inRange s.cfg)
    (r : Byte) : (s.writePlace p r).dregs.length = s.cfg.numDregs := by
  cases p with
  | dreg i =>
    have hi : i.toNat < s.dregs.length := hs.dregs_count.symm ▸ hp
    exact (length_putDreg s.dregs i.toNat r hi).trans hs.dregs_count
  | mem a => exact hs.dregs_count
  | imm v => exact hs.dregs_count

/-- An instruction that completes keeps the invariant. -/
theorem Completed.inv {s t : State} {op : Op} (h : Completed s t op) (hrun : s.status = .running)
    (hs : s.Inv) : t.Inv := by
  have hmem : Memory.wf t.mem = true ∧ ∀ cell ∈ t.mem, cell.1 < s.cfg.memCap := by
    rcases h.written with ⟨hm, -⟩ | ⟨p, r, hp, hm, -⟩
    · exact hm ▸ ⟨hs.mem_canonical, hs.mem_inside⟩
    · exact hm ▸ hs.writePlace_mem hp r
  have hdregs : t.dregs.length = s.cfg.numDregs := by
    rcases h.written with ⟨-, hd⟩ | ⟨p, r, hp, -, hd⟩
    · exact hd ▸ hs.dregs_count
    · exact hd ▸ hs.writePlace_dregs hp r
  have hflags : t.flags.c = false ∧ t.flags.v = false := by
    rcases h.carry with hf | hf
    · exact hf ▸ ⟨hs.carry_clear, hs.overflow_clear⟩
    · exact hf
  exact {
    mem_canonical := hmem.1
    mem_inside := h.cfg ▸ hmem.2
    dregs_count := h.cfg ▸ hdregs
    carry_clear := hflags.1
    overflow_clear := hflags.2
    fault_clear := fun _ => h.fault.trans (hs.fault_clear (by simp [hrun]))
    fault_set := fun hf => absurd hf (h.not_faulted hrun) }

/-- Settles O18: by the cases of a transition, a raise with a legal record or an instruction that
completes. -/
theorem stepKeepsTheInvariant : Obligations.StepKeepsTheInvariant := by
  intro s t hs h
  rcases step_next_cases h with ht | ⟨-, rfl⟩
  · rcases transition_cases ht with ⟨r, hr, rfl⟩ | ⟨op, -, -, -, hc⟩
    · exact hs.raise (fault_record_legal hr)
    · exact hc.inv ht.1 hs
  · exact hs

/-- R42, R124: the core as constructed, with any canonical memory inside the address space. -/
theorem State.fresh_withMem_inv (cfg : Config) (start : PcWord) {m : Memory}
    (hwf : Memory.wf m = true) (hin : ∀ cell ∈ m, cell.1 < cfg.memCap) :
    State.Inv { State.fresh cfg start with mem := m } where
  mem_canonical := hwf
  mem_inside := hin
  dregs_count := List.length_replicate
  carry_clear := rfl
  overflow_clear := rfl
  fault_clear := fun _ => rfl
  fault_set := fun h => nomatch h

/-- Settles O17: the reset state is the core as constructed with the empty memory. -/
theorem resetSatisfiesTheInvariant : Obligations.ResetSatisfiesTheInvariant :=
  State.fresh_withMem_inv Config.default 0 rfl (fun _ h => nomatch h)

/-- R124: an accepted load is the core as constructed with the image's bytes in memory. -/
theorem State.load_eq_next {s t : State} {image : List Byte} {start : PcWord}
    (h : s.load image start = .next t) :
    image.length ≤ s.cfg.memCap ∧
      t = { State.fresh s.cfg start with mem := Memory.storeAll [] 0 image } := by
  unfold State.load at h
  split at h
  · cases h
    exact ⟨‹_›, rfl⟩
  · cases h

/-- R123, R124: an accepted load establishes the invariant. -/
theorem State.load_inv {s t : State} {image : List Byte} {start : PcWord}
    (h : s.load image start = .next t) : t.Inv := by
  obtain ⟨hlen, rfl⟩ := State.load_eq_next h
  exact State.fresh_withMem_inv _ _ (Memory.wf_storeAll image [] 0 rfl)
    (Memory.inside_storeAll image [] 0 (by omega) (fun _ h => nomatch h))

/-- The machine invariant holds in every reachable state. -/
theorem Reachable.inv {cfg : Config} {s : State} (h : Reachable cfg s) : s.Inv := by
  induction h with
  | loaded s t image start _ hload => exact State.load_inv hload
  | stepped s t _ hstep ih => exact stepKeepsTheInvariant s t ih hstep

/-- Settles O20. -/
theorem carryAndOverflowAreNeverSet : Obligations.CarryAndOverflowAreNeverSet :=
  fun _ _ h => ⟨h.inv.carry_clear, h.inv.overflow_clear⟩

/-- Settles O1. -/
theorem resetLeavesEveryPieceAtItsResetValue :
    Obligations.ResetLeavesEveryPieceAtItsResetValue := by
  refine ⟨fun i hi => ?_, fun _ _ => rfl, rfl, rfl, rfl, rfl, rfl, rfl⟩
  have hdregs : State.reset.dregs = List.replicate State.reset.cfg.numDregs 0x00 := rfl
  simp [State.readDreg, hdregs, hi]

end Sys2Proof.Machine
end

section
/-! Machines that inspect alike step alike (10_state.md R41). -/

namespace Sys2Proof.Machine

/-- R32: the codes of the execution state tell its values apart. -/
theorem Status.code_injective {x y : Status} (h : x.code = y.code) : x = y := by
  cases x <;> cases y <;> simp_all [Status.code]

/-- R35, R108: the codes of the fault causes tell them apart. -/
theorem FaultCause.code_injective {x y : FaultCause} (h : x.code = y.code) : x = y := by
  cases x <;> cases y <;> simp_all [FaultCause.code]

/-- R35: the codes of the fault spaces tell them apart. -/
theorem FaultSpace.code_injective {x y : FaultSpace} (h : x.code = y.code) : x = y := by
  cases x <;> cases y <;> simp_all [FaultSpace.code]

/-- R22: the five flags are all of `Flags`. -/
theorem Flags.eq_of_bits {f g : Flags} (hn : f.n = g.n) (hz : f.z = g.z) (hc : f.c = g.c)
    (hv : f.v = g.v) (he : f.e = g.e) : f = g := by
  cases f; cases g; simp_all

/-- R35: the codes that the host reads are all of a fault record. -/
theorem FaultRecord.eq_of_codes {f g : FaultRecord} (hcause : f.cause.code = g.cause.code)
    (hpc : f.pc = g.pc) (hspace : f.space.code = g.space.code) (hinfo : f.info = g.info) : f = g := by
  have := FaultCause.code_injective hcause
  have := FaultSpace.code_injective hspace
  cases f; cases g; simp_all

/-- R41: the two machines agree on every piece of state that the parameters give them: the registers
and cells that exist, and all of the rest. -/
structure Alike (s s' : State) : Prop where
  cfg : s.cfg = s'.cfg
  dregs : ∀ i < s.cfg.numDregs, s.readDreg i = s'.readDreg i
  mem : ∀ a < s.cfg.memCap, s.readMem a = s'.readMem a
  flags : s.flags = s'.flags
  pc : s.pc = s'.pc
  status : s.status = s'.status
  fault : s.fault = s'.fault

/-- R129: `Alike` is what the host sees by inspection. -/
theorem alike_iff_inspect {s s' : State} (hcfg : s.cfg = s'.cfg) :
    Alike s s' ↔ s.inspect = s'.inspect := by
  constructor
  · intro h
    have hd : (List.range s.cfg.numDregs).map s.readDreg = (List.range s.cfg.numDregs).map s'.readDreg :=
      List.map_congr_left fun i hi => h.dregs i (List.mem_range.1 hi)
    have hm : (List.range s.cfg.memCap).map s.readMem = (List.range s.cfg.memCap).map s'.readMem :=
      List.map_congr_left fun a ha => h.mem a (List.mem_range.1 ha)
    simp only [State.inspect, hd, hm, ← hcfg, h.flags, h.pc, h.status, h.fault]
  · intro h
    simp only [State.inspect, ← hcfg, Snapshot.mk.injEq, List.map_inj_left, List.mem_range] at h
    obtain ⟨hd, hn, hz, hc, hv, he, hm, hpc, hst, hcause, hfpc, hspace, hinfo⟩ := h
    exact {
      cfg := hcfg
      dregs := hd
      mem := hm
      flags := Flags.eq_of_bits hn hz hc hv he
      pc := hpc
      status := Status.code_injective hst
      fault := FaultRecord.eq_of_codes hcause hfpc hspace hinfo }

namespace Alike

variable {s s' : State}

/-! ### What is read -/

theorem readPlace (h : Alike s s') {p : Place} (hp : p.inRange s.cfg) :
    s.readPlace p = s'.readPlace p := by
  cases p with
  | dreg i => exact h.dregs _ hp
  | mem a => exact h.mem _ hp
  | imm v => rfl

theorem fetchBytes (h : Alike s s') : s.fetchBytes = s'.fetchBytes := by
  simp only [State.fetchBytes, ← h.cfg, ← h.pc]
  refine List.map_congr_left fun k hk => h.mem _ ?_
  have := List.mem_range.1 hk
  omega

theorem fetch (h : Alike s s') : s.fetch = s'.fetch := by
  simp only [State.fetch, h.fetchBytes, h.pc]

/-! ### What is written -/

theorem raise (h : Alike s s') (r : Raise) : Alike (s.raise r) (s'.raise r) where
  cfg := h.cfg
  dregs := h.dregs
  mem := h.mem
  flags := h.flags
  pc := h.pc
  status := rfl
  fault := by simp [h.pc]

theorem setFlags (h : Alike s s') (f : Flags) : Alike (s.setFlags f) (s'.setFlags f) :=
  { h with flags := rfl }

theorem advance (h : Alike s s') (op : Op) : Alike (s.advance op) (s'.advance op) :=
  { h with pc := by simp [h.pc] }

theorem jumpTo (h : Alike s s') (target : Byte) : Alike (s.jumpTo target) (s'.jumpTo target) :=
  { h with pc := rfl }

theorem halt (h : Alike s s') :
    Alike { s with status := .halted } { s' with status := .halted } :=
  { h with status := rfl }

theorem writePlace (h : Alike s s') (p : Place) (r : Byte) :
    Alike (s.writePlace p r) (s'.writePlace p r) where
  cfg := by simp [h.cfg]
  dregs i hi := by
    rw [State.writePlace_cfg] at hi
    cases p <;> simp only [State.readDreg_writePlace, h.dregs i hi]
  mem a ha := by
    rw [State.writePlace_cfg] at ha
    cases p <;> simp only [State.readMem_writePlace, h.mem a ha]
  flags := by simp [h.flags]
  pc := by simp [h.pc]
  status := by simp [h.status]
  fault := by simp [h.fault]

theorem combine (h : Alike s s') (op : Op) (f : Byte → Byte → Byte) {a d : Place}
    (ha : a.inRange s.cfg) (hd : d.inRange s.cfg) :
    Alike (s.combine op f a d) (s'.combine op f a d) := by
  simp only [State.combine, h.readPlace ha, h.readPlace hd, h.flags]
  exact ((h.writePlace _ _).setFlags _).advance op

theorem count (h : Alike s s') (op : Op) (f : Byte → Byte) {d : Place} (hd : d.inRange s.cfg) :
    Alike (s.count op f d) (s'.count op f d) := by
  simp only [State.count, h.readPlace hd, h.flags]
  exact ((h.writePlace _ _).setFlags _).advance op

theorem branch (h : Alike s s') (op : Op) (taken : Flags → Bool) (target : Byte) :
    Alike (s.branch op (taken s.flags) target) (s'.branch op (taken s'.flags) target) := by
  rw [← h.flags]
  cases taken s.flags with
  | true => exact h.jumpTo target
  | false => exact h.advance op

end Alike

/-! ### The execute phase -/

/-- Both outcomes are next states, and these are alike. -/
def NextAlike (o o' : Host.Outcome State Fault Refusal) : Prop :=
  ∃ t t', o = .next t ∧ o' = .next t' ∧ Alike t t'

theorem Alike.next {t t' : State} (h : Alike t t') : NextAlike (.next t) (.next t') :=
  ⟨t, t', rfl, rfl, h⟩

/-- Format U: the checks see only the parameters, so what is executed on a place that exists decides. -/
theorem Alike.withOne {s s' : State} (h : Alike s s') (op : Op) (dest : Operand)
    {f f' : Place → State} (hf : ∀ d, d.inRange s.cfg → Alike (f d) (f' d)) :
    NextAlike (withOne op dest s f) (withOne op dest s' f') := by
  unfold Machine.withOne
  rw [← h.cfg]
  rcases resolveOne_cases op dest s.cfg with ⟨r, hr, -⟩ | ⟨d, hd, -, hin⟩
  · simpa only [hr] using (h.raise r).next
  · simpa only [hd] using (hf d hin).next

/-- Format B: as for format U, with two places. -/
theorem Alike.withTwo {s s' : State} (h : Alike s s') (op : Op) (src dest : Operand)
    {f f' : Place → Place → State}
    (hf : ∀ a d, a.inRange s.cfg → d.inRange s.cfg → Alike (f a d) (f' a d)) :
    NextAlike (withTwo op src dest s f) (withTwo op src dest s' f') := by
  unfold Machine.withTwo
  rw [← h.cfg]
  rcases resolveTwo_cases op src dest s.cfg with ⟨r, hr, -⟩ | ⟨a, d, had, -, -, ha, hd⟩
  · simpa only [hr] using (h.raise r).next
  · simpa only [had] using (hf a d ha hd).next

/-- R41 for the execute phase, instruction by instruction. -/
theorem Alike.exec {s s' : State} (h : Alike s s') (i : Instr) : NextAlike (exec i s) (exec i s') := by
  cases i with
  | noop => exact (h.advance .noop).next
  | halt => exact (h.advance .halt).halt.next
  | moveB src dest =>
    refine h.withTwo .moveB src dest fun a d ha hd => ?_
    simp only [h.readPlace ha, h.readPlace hd, h.flags]
    exact ((h.writePlace d _).setFlags _).advance .moveB
  | addB src dest => exact h.withTwo .addB src dest fun a d => h.combine .addB addBytes
  | subB src dest => exact h.withTwo .subB src dest fun a d => h.combine .subB subBytes
  | mulB src dest => exact h.withTwo .mulB src dest fun a d => h.combine .mulB mulBytes
  | divB src dest =>
    refine h.withTwo .divB src dest fun a d ha hd => ?_
    simp only [h.readPlace ha, h.cfg]
    split
    · exact h.raise .divisionByZero
    · exact h.combine .divB _ ha hd
  | inc dest => exact h.withOne .inc dest fun d => h.count .inc incByte
  | dec dest => exact h.withOne .dec dest fun d => h.count .dec decByte
  | cmpB src dest =>
    refine h.withTwo .cmpB src dest fun a d ha hd => ?_
    simp only [h.readPlace ha, h.readPlace hd, h.flags]
    exact (h.setFlags _).advance .cmpB
  | jmp target => exact (h.branch .jmp (fun _ => true) target).next
  | jnz target => exact (h.branch .jnz Flags.z target).next
  | jng target => exact (h.branch .jng Flags.n target).next
  | jeq target => exact (h.branch .jeq Flags.e target).next
  | jne target => exact (h.branch .jne (fun f => !f.e) target).next

/-- R41 for a whole step: alike machines fetch the same, and fault or execute alike. -/
theorem Alike.step {s s' : State} (h : Alike s s') : NextAlike (step s) (step s') := by
  unfold Machine.step
  rw [← h.status, ← h.fetch]
  cases s.status with
  | running =>
    cases s.fetch with
    | error r => exact (h.raise r).next
    | ok i => exact h.exec i
  | halted => exact h.next
  | faulted => exact h.next

/-- Settles O52: `Alike` is what `Inspect` shows, and a step keeps it. -/
theorem stepDependsOnlyOnWhatInspectShows : Obligations.StepDependsOnlyOnWhatInspectShows := by
  intro s s' t t' hcfg hins hstep hstep'
  obtain ⟨u, u', hu, hu', halike⟩ := ((alike_iff_inspect hcfg).2 hins).step
  cases hu.symm.trans hstep
  cases hu'.symm.trans hstep'
  exact (alike_iff_inspect halike.cfg).1 halike

end Sys2Proof.Machine
end

section
/-! What an instruction that completes wrote, and what follows for registers, flags and pc
(10_state.md R18, R23, R24, R29, R30). -/

namespace Sys2Proof.Machine

/-! ### Once everything a completed instruction can be -/

/-- What the instruction at pc of the row `op` leaves when it does not fault, by the shape of its rule
(R24, R88 to R107). -/
inductive Effect (s : State) : Op → State → Prop
  | noop : Effect s .noop (s.advance .noop)
  | halt : Effect s .halt { s.advance .halt with status := .halted }
  /-- R88 to R93: the destination is written, with the flags of a result. -/
  | computed {op : Op} {d : Place} (hop : 0x02 ≤ op.code.toNat ∧ op.code.toNat ≤ 0x06)
      (hd : admitted (destAdmits op) (operandOf (byteAt s 3) (byteAt s 4)) = .ok d)
      (r dest src : Byte) :
      Effect s op (((s.writePlace d r).setFlags (s.flags.afterResult r dest src)).advance op)
  /-- R97: the flags of a result, and nothing written. -/
  | compared (r dest src : Byte) :
      Effect s .cmpB ((s.setFlags (s.flags.afterResult r dest src)).advance .cmpB)
  /-- R95, R96: the destination is written, E unchanged. -/
  | counted {op : Op} {d : Place} (hop : op = .inc ∨ op = .dec)
      (hd : admitted (destAdmits op) (operandOf (byteAt s 1) (byteAt s 2)) = .ok d) (r : Byte) :
      Effect s op (((s.writePlace d r).setFlags (s.flags.afterStep r)).advance op)
  /-- R100 to R104. -/
  | branched {op : Op} (hop : op.format = .J) (taken : Bool) :
      Effect s op (s.branch op taken (byteAt s 1))

/-- A format B answer that does not fault is what was executed on the admitted places. -/
theorem withTwo_completed {op : Op} {src dest : Operand} {s t : State} {f : Place → Place → State}
    (h : withTwo op src dest s f = .next t) (ht : t.status ≠ .faulted) :
    ∃ a d, t = f a d ∧ admitted (destAdmits op) dest = .ok d := by
  rcases withTwo_next h with ⟨r, rfl⟩ | ⟨a, d, rfl, -, hd⟩
  · exact absurd rfl ht
  · exact ⟨a, d, rfl, hd⟩

/-- A format U answer that does not fault is what was executed on the admitted place. -/
theorem withOne_completed {op : Op} {dest : Operand} {s t : State} {f : Place → State}
    (h : withOne op dest s f = .next t) (ht : t.status ≠ .faulted) :
    ∃ d, t = f d ∧ admitted (destAdmits op) dest = .ok d := by
  rcases withOne_next h with ⟨r, rfl⟩ | ⟨d, rfl, hd⟩
  · exact absurd rfl ht
  · exact ⟨d, rfl, hd⟩

/-- Every instruction of the opcode map has its effect when it does not fault. -/
theorem exec_effect {op : Op} {s t : State} (h : exec (s.instrAt op) s = .next t)
    (ht : t.status ≠ .faulted) : Effect s op t := by
  cases op with
  | noop => cases h; exact .noop
  | halt => cases h; exact .halt
  | moveB =>
    obtain ⟨a, d, rfl, hd⟩ := withTwo_completed h ht
    exact .computed (by decide) hd _ _ _
  | addB =>
    obtain ⟨a, d, rfl, hd⟩ := withTwo_completed h ht
    exact .computed (by decide) hd _ _ _
  | subB =>
    obtain ⟨a, d, rfl, hd⟩ := withTwo_completed h ht
    exact .computed (by decide) hd _ _ _
  | mulB =>
    obtain ⟨a, d, rfl, hd⟩ := withTwo_completed h ht
    exact .computed (by decide) hd _ _ _
  | divB =>
    obtain ⟨a, d, rfl, hd⟩ := withTwo_completed h ht
    split at ht
    · exact absurd rfl ht
    · rw [if_neg ‹_›]
      exact .computed (by decide) hd _ _ _
  | inc =>
    obtain ⟨d, rfl, hd⟩ := withOne_completed h ht
    exact .counted (.inl rfl) hd _
  | dec =>
    obtain ⟨d, rfl, hd⟩ := withOne_completed h ht
    exact .counted (.inr rfl) hd _
  | cmpB =>
    obtain ⟨a, d, rfl, -⟩ := withTwo_completed h ht
    exact .compared _ _ _
  | jmp => cases h; exact .branched rfl _
  | jnz => cases h; exact .branched rfl _
  | jng => cases h; exact .branched rfl _
  | jeq => cases h; exact .branched rfl _
  | jne => cases h; exact .branched rfl _

/-- A transition is a raise, or the effect of the instruction at pc, which lies inside memory and does
not fault. -/
theorem transition_effect {s t : State} (h : Transition s t) :
    (∃ r, t = s.raise r) ∨
    (∃ op : Op, OpcodeAt s op.code ∧ s.pc.toNat + op.length ≤ s.cfg.memCap ∧
      t.status ≠ .faulted ∧ Effect s op t) := by
  rcases transition_cases h with ⟨r, -, rfl⟩ | ⟨op, hat, hlen, hexec, hc⟩
  · exact .inl ⟨r, rfl⟩
  · have ht := hc.not_faulted h.1
    exact .inr ⟨op, hat, hlen, ht, exec_effect hexec ht⟩

/-- R71: the opcode byte is byte 0 of the instruction. -/
theorem OpcodeAt.byteAt_zero {s : State} {opcode : Byte} (h : OpcodeAt s opcode) :
    byteAt s 0 = opcode := h.2.2

/-! ### Registers -/

/-- R18: only a write to a register changes a register, and only that one. -/
theorem eq_dreg_of_readDreg_writePlace_ne {s : State} {d : Place} {r : Byte} {i : Nat}
    (h : (s.writePlace d r).readDreg i ≠ s.readDreg i) : ∃ index, d = .dreg index ∧ i = index.toNat := by
  rw [State.readDreg_writePlace] at h
  cases d with
  | dreg index => exact ⟨index, rfl, by_contra fun hi => h (if_neg hi)⟩
  | mem a => exact absurd rfl h
  | imm v => exact absurd rfl h

/-- R66, R69: an operand admitted as a register has tag 0x00 and its value byte is the index. -/
theorem tag_value_of_admitted_dreg {kinds : List Kind} {tag value index : Byte}
    (h : admitted kinds (operandOf tag value) = .ok (.dreg index)) : tag = 0x00 ∧ value = index := by
  obtain ⟨-, htag, hvalue⟩ := operandOf_spec tag value
  rcases admitted_eq_ok h with ⟨i, ho, hp, -⟩ | ⟨a, -, hp, -⟩ | ⟨v, -, hp, -⟩
  · cases hp
    rw [ho] at htag hvalue
    exact ⟨htag.symm, hvalue.symm⟩
  · cases hp
  · cases hp

/-- R18, R66: a register that an admitted destination changes is the one its bytes name. -/
theorem dest_bytes_of_readDreg_ne {s : State} {kinds : List Kind} {tag value r : Byte} {d : Place}
    {i : Nat} (hd : admitted kinds (operandOf tag value) = .ok d)
    (h : (s.writePlace d r).readDreg i ≠ s.readDreg i) : tag = 0x00 ∧ i = value.toNat := by
  obtain ⟨index, rfl, hi⟩ := eq_dreg_of_readDreg_writePlace_ne h
  obtain ⟨htag, rfl⟩ := tag_value_of_admitted_dreg hd
  exact ⟨htag, hi⟩

@[simp] theorem State.branch_readDreg (s : State) (op : Op) (taken : Bool) (target : Byte) (i : Nat) :
    (s.branch op taken target).readDreg i = s.readDreg i := by cases taken <;> rfl

@[simp] theorem State.branch_flags (s : State) (op : Op) (taken : Bool) (target : Byte) :
    (s.branch op taken target).flags = s.flags := by cases taken <;> rfl

/-- Settles O44. -/
theorem onlyRegisterDestinationsChangeRegisters :
    Obligations.OnlyRegisterDestinationsChangeRegisters := by
  intro s t i ht hne
  rcases transition_effect ht with ⟨r, rfl⟩ | ⟨op, hat, -, -, he⟩
  · exact absurd rfl hne
  rw [hat.byteAt_zero]
  cases he with
  | noop => exact absurd rfl hne
  | halt => exact absurd rfl hne
  | computed hop hd r dest src =>
    exact .inl ⟨hop.1, hop.2, dest_bytes_of_readDreg_ne hd hne⟩
  | compared r dest src => exact absurd rfl hne
  | counted hop hd r =>
    refine .inr ⟨?_, dest_bytes_of_readDreg_ne hd hne⟩
    exact hop.imp (congrArg Op.code) (congrArg Op.code)
  | branched hop taken => exact absurd (by simp) hne

/-! ### Flags -/

/-- Settles O45. -/
theorem onlyDataInstructionsChangeFlags : Obligations.OnlyDataInstructionsChangeFlags := by
  intro s t ht hne
  rcases transition_effect ht with ⟨r, rfl⟩ | ⟨op, hat, -, hnf, he⟩
  · exact absurd rfl hne
  refine ⟨hnf, ?_⟩
  rw [hat.byteAt_zero]
  cases he with
  | noop => exact absurd rfl hne
  | halt => exact absurd rfl hne
  | computed hop hd r dest src =>
    obtain ⟨hlo, hhi⟩ := hop
    refine ⟨hlo, by omega, rfl, rfl, fun hcode => ?_⟩
    rcases hcode with hcode | hcode <;> exact absurd hhi (by rw [hcode]; decide)
  | compared r dest src => exact ⟨by decide, by decide, rfl, rfl, fun hcode => absurd hcode (by decide)⟩
  | counted hop hd r =>
    rcases hop with rfl | rfl
    · exact ⟨by decide, by decide, rfl, rfl, fun _ => rfl⟩
    · exact ⟨by decide, by decide, rfl, rfl, fun _ => rfl⟩
  | branched hop taken => exact absurd (by simp) hne

/-! ### The program counter -/

/-- R29: what a completed instruction leaves in pc. -/
theorem Effect.pc {s t : State} {op : Op} (h : Effect s op t) :
    t.pc = s.pc + BitVec.ofNat 16 op.length ∨ (op.format = .J ∧ t.pc = zext16 (byteAt s 1)) := by
  cases h with
  | noop => exact .inl rfl
  | halt => exact .inl rfl
  | computed hop hd r dest src => exact .inl (by simp)
  | compared r dest src => exact .inl rfl
  | counted hop hd r => exact .inl (by simp)
  | branched hop taken =>
    cases taken with
    | true => exact .inr ⟨hop, rfl⟩
    | false => exact .inl rfl

/-- R30: inside memory, at most 256 cells, moving pc past an instruction does not wrap. -/
theorem toNat_advance_pc {s : State} {n : Nat} (h : s.pc.toNat + n ≤ s.cfg.memCap) :
    (s.pc + BitVec.ofNat 16 n).toNat = s.pc.toNat + n := by
  have hcap := memCap_le s.cfg
  rw [BitVec.toNat_add, BitVec.toNat_ofNat]
  omega

/-- Settles O46. -/
theorem pcAdvancesWithoutWrapping : Obligations.PcAdvancesWithoutWrapping := by
  intro s t ht hnf
  rcases transition_effect ht with ⟨r, rfl⟩ | ⟨op, hat, hlen, -, he⟩
  · exact absurd rfl hnf
  refine ⟨op, hat, hlen, ?_⟩
  rcases he.pc with hpc | ⟨hJ, hpc⟩
  · exact .inl (by rw [hpc, toNat_advance_pc hlen])
  · exact .inr ⟨hJ, by rw [hpc, toNat_zext16]⟩

end Sys2Proof.Machine
end

section
/-! Runs, and the step at an instruction's bytes (10_state.md R36, R38, R39). -/

namespace Sys2Proof.Machine

/-! ### Bounded runs -/

/-- R34, R38: more steps do not change where a run that has ended stands. -/
theorem runFor_add_of_ended (limit more : Nat) {s t : State} (h : runFor limit s = .next t)
    (ht : t.status ≠ .running) : runFor (limit + more) s = .next t := by
  induction limit generalizing s with
  | zero =>
    cases h
    exact runFor_terminal _ _ ht
  | succ limit ih =>
    by_cases hs : s.status = .running
    · obtain ⟨u, hu⟩ := exists_step_eq_next s
      rw [runFor_succ hs hu] at h
      rw [Nat.add_right_comm, runFor_succ hs hu]
      exact ih h
    · rw [runFor_terminal _ s hs] at h
      cases h
      exact runFor_terminal _ _ hs

/-- Settles O48: two ended runs from one state agree after the sum of their bounds. -/
theorem runEndsInAtMostOneState : Obligations.RunEndsInAtMostOneState := by
  refine ⟨fun limit more _ _ => runFor_add_of_ended limit more, ?_⟩
  rintro s t u ⟨m, hm, ht⟩ ⟨n, hn, hu⟩
  have hmt : runFor (m + n) s = .next t := runFor_add_of_ended m n hm ht
  have hnu : runFor (n + m) s = .next u := runFor_add_of_ended n m hn hu
  rw [Nat.add_comm, hmt] at hnu
  cases hnu
  rfl

/-- R100: a `jmp` to its own address leaves the machine as it is. -/
theorem step_jmp_self {s : State} (hat : OpcodeAt s Op.jmp.code)
    (hlen : s.pc.toNat + Op.jmp.length ≤ s.cfg.memCap) (htarget : (byteAt s 1).toNat = s.pc.toNat) :
    step s = .next s := by
  have hpc : zext16 (byteAt s 1) = s.pc := BitVec.eq_of_toNat_eq ((toNat_zext16 _).trans htarget)
  calc step s = .next (s.jumpTo (byteAt s 1)) := step_opcodeAt hat hlen
    _ = .next s := by rw [State.jumpTo, hpc]

/-- Settles O49, by induction on the bound. -/
theorem jumpToItselfNeverEnds : Obligations.JumpToItselfNeverEnds := by
  intro s hat hlen htarget limit
  induction limit with
  | zero => rfl
  | succ limit ih => rw [runFor_succ hat.1 (step_jmp_self hat hlen htarget), ih]

/-! ### The instruction whose bytes lie at pc -/

/-- R63: the encoding of an instruction is as long as its opcode says. -/
theorem length_encode (i : Instr) : (encode i).length = i.op.length := by
  cases i <;> rfl

/-- R66: the tag and the value byte of a well-formed operand stand for that operand. -/
theorem operandOf_of_bytes {o : Operand} {tag value : Byte} (h : o.wellFormed = true)
    (htag : tag = o.tag) (hvalue : value = o.valueByte) : operandOf tag value = o := by
  rw [htag, hvalue, operandOf_tag_valueByte o h]

/-- R62: the two operands that lie after an opcode byte at pc are read back, whatever the instruction
makes of them. -/
theorem two_operands_of_bytes (make : Operand → Operand → Instr) {s : State} {opcode : Byte}
    {src dest : Operand} (hwf : (src.wellFormed && dest.wellFormed) = true)
    (h : ∀ k (hk : k < (opcode :: (encodeOperand src ++ encodeOperand dest)).length),
      byteAt s k = (opcode :: (encodeOperand src ++ encodeOperand dest))[k]) :
    make (operandOf (byteAt s 1) (byteAt s 2)) (operandOf (byteAt s 3) (byteAt s 4)) =
      make src dest := by
  obtain ⟨hsrc, hdest⟩ := Bool.and_eq_true_iff.1 hwf
  rw [operandOf_of_bytes hsrc (h 1 (by simp [encodeOperand])) (h 2 (by simp [encodeOperand])),
    operandOf_of_bytes hdest (h 3 (by simp [encodeOperand])) (h 4 (by simp [encodeOperand]))]

/-- R62: the one operand that lies after an opcode byte at pc is read back. -/
theorem one_operand_of_bytes (make : Operand → Instr) {s : State} {opcode : Byte} {dest : Operand}
    (hwf : dest.wellFormed = true)
    (h : ∀ k (hk : k < (opcode :: encodeOperand dest).length),
      byteAt s k = (opcode :: encodeOperand dest)[k]) :
    make (operandOf (byteAt s 1) (byteAt s 2)) = make dest := by
  rw [operandOf_of_bytes hwf (h 1 (by simp [encodeOperand])) (h 2 (by simp [encodeOperand]))]

/-- R71, R77: the bytes of a well-formed instruction at pc spell that instruction. -/
theorem instrAt_of_bytes {s : State} {i : Instr} (hwf : i.wellFormed = true)
    (h : ∀ k (hk : k < (encode i).length), byteAt s k = (encode i)[k]) : s.instrAt i.op = i := by
  cases i with
  | noop => rfl
  | halt => rfl
  | moveB src dest => exact two_operands_of_bytes .moveB hwf h
  | addB src dest => exact two_operands_of_bytes .addB hwf h
  | subB src dest => exact two_operands_of_bytes .subB hwf h
  | mulB src dest => exact two_operands_of_bytes .mulB hwf h
  | divB src dest => exact two_operands_of_bytes .divB hwf h
  | inc dest => exact one_operand_of_bytes .inc hwf h
  | dec dest => exact one_operand_of_bytes .dec hwf h
  | cmpB src dest => exact two_operands_of_bytes .cmpB hwf h
  | jmp target => exact congrArg Instr.jmp (h 1 Nat.one_lt_two)
  | jnz target => exact congrArg Instr.jnz (h 1 Nat.one_lt_two)
  | jng target => exact congrArg Instr.jng (h 1 Nat.one_lt_two)
  | jeq target => exact congrArg Instr.jeq (h 1 Nat.one_lt_two)
  | jne target => exact congrArg Instr.jne (h 1 Nat.one_lt_two)

/-- Settles O9. -/
theorem stepRunsTheInstructionAtPc : Obligations.StepRunsTheInstructionAtPc := by
  intro s i hs hwf hbytes
  have hlen := length_encode i
  have hpos := (Op.length_bounds i.op).1
  obtain ⟨hpc, hcode⟩ := hbytes 0 (by omega)
  have hlast := (hbytes (i.op.length - 1) (by omega)).1
  have hat : OpcodeAt s i.op.code := ⟨hs, hpc, hcode⟩
  rw [step_opcodeAt hat (by omega), instrAt_of_bytes hwf fun k hk => (hbytes k hk).2]

end Sys2Proof.Machine
end

section
/-! What changes memory, what a write to the executing instruction's own bytes does, and that the
canonical form of memory is canonical (20_memory.md R43, R46, R47, R54, R55, R58). -/

namespace Sys2Proof.Machine

/-! ### Which instructions write to memory -/

@[simp] theorem State.branch_readMem (s : State) (op : Op) (taken : Bool) (target : Byte) (a : Nat) :
    (s.branch op taken target).readMem a = s.readMem a := by cases taken <;> rfl

/-- R68: the rows of the opcode map whose destination slot admits a memory cell. -/
theorem op_of_destAdmits_mem {op : Op} (h : (destAdmits op).contains .mem = true) :
    op = .moveB ∨ op = .inc ∨ op = .dec := by
  revert h
  cases op <;> decide

/-- R46: only a write to a cell changes memory, and only that cell. -/
theorem eq_mem_of_readMem_writePlace_ne {s : State} {d : Place} {r : Byte} {a : Nat}
    (h : (s.writePlace d r).readMem a ≠ s.readMem a) :
    ∃ address, d = .mem address ∧ a = address.toNat := by
  rw [State.readMem_writePlace] at h
  cases d with
  | mem address => exact ⟨address, rfl, by_contra fun ha => h (if_neg ha)⟩
  | dreg i => exact absurd rfl h
  | imm v => exact absurd rfl h

/-- R66, R69: an operand admitted as a memory cell stands in a slot that admits cells, has tag 0x02, and
its value byte is the address. -/
theorem tag_value_of_admitted_mem {kinds : List Kind} {tag value address : Byte}
    (h : admitted kinds (operandOf tag value) = .ok (.mem address)) :
    kinds.contains .mem = true ∧ tag = 0x02 ∧ value = address := by
  obtain ⟨-, htag, hvalue⟩ := operandOf_spec tag value
  rcases admitted_eq_ok h with ⟨i, -, hp, -⟩ | ⟨a, ho, hp, hkinds⟩ | ⟨v, -, hp, -⟩
  · cases hp
  · cases hp
    rw [ho] at htag hvalue
    exact ⟨hkinds, htag.symm, hvalue.symm⟩
  · cases hp

/-- R47, R66: a cell that an admitted destination changes is the one its bytes name, and the instruction
is one of the three that write to memory. -/
theorem dest_bytes_of_readMem_ne {s : State} {op : Op} {tag value r : Byte} {d : Place} {a : Nat}
    (hd : admitted (destAdmits op) (operandOf tag value) = .ok d)
    (h : (s.writePlace d r).readMem a ≠ s.readMem a) :
    (op = .moveB ∨ op = .inc ∨ op = .dec) ∧ tag = 0x02 ∧ a = value.toNat := by
  obtain ⟨address, rfl, ha⟩ := eq_mem_of_readMem_writePlace_ne h
  obtain ⟨hkinds, htag, rfl⟩ := tag_value_of_admitted_mem hd
  exact ⟨op_of_destAdmits_mem hkinds, htag, ha⟩

/-- Settles O43. -/
theorem onlyMemoryDestinationsChangeMemory : Obligations.OnlyMemoryDestinationsChangeMemory := by
  intro s t a ht hne
  rcases transition_effect ht with ⟨r, rfl⟩ | ⟨op, hat, -, -, he⟩
  · exact absurd rfl hne
  cases he with
  | noop => exact absurd rfl hne
  | halt => exact absurd rfl hne
  | computed hop hd r dest src =>
    obtain ⟨rfl | rfl | rfl, hbytes⟩ := dest_bytes_of_readMem_ne hd hne
    · exact .inl ⟨hat, hbytes⟩
    · exact absurd hop.2 (by decide)
    · exact absurd hop.2 (by decide)
  | compared r dest src => exact absurd rfl hne
  | counted hop hd r =>
    obtain ⟨-, hbytes⟩ := dest_bytes_of_readMem_ne hd hne
    rcases hop with rfl | rfl
    · exact .inr ⟨.inl hat, hbytes⟩
    · exact .inr ⟨.inr hat, hbytes⟩
  | branched hop taken => exact absurd (by simp) hne

/-! ### A `move.b` of an immediate to a cell -/

/-- An instruction of format B whose checks pass executes on the places they answer. -/
theorem withTwo_of_resolveTwo {op : Op} {src dest : Operand} {s : State} {f : Place → Place → State}
    {a d : Place} (h : resolveTwo op src dest s.cfg = .ok (a, d)) :
    withTwo op src dest s f = .next (f a d) := by rw [withTwo, h]

/-- R88: a `move.b` of an immediate to a cell that exists writes that cell and advances. -/
theorem exec_moveB_imm_mem {s : State} {v address : Byte} (h : address.toNat < s.cfg.memCap) :
    ∃ t, exec (.moveB (.imm v) (.mem address)) s = .next t ∧
      CellWritten s t address.toNat v ∧ Advanced s t 5 := by
  have hresolve : resolveTwo .moveB (.imm v) (.mem address) s.cfg = .ok (.imm v, .mem address) := by
    simp [resolveTwo, admitted, srcAdmits, destAdmits, checkRange, h]
  refine ⟨_, withTwo_of_resolveTwo hresolve, ?_, ?_⟩
  · exact cellWritten_of s _ address v rfl rfl
  · exact advanced_of s _ .moveB 5 rfl rfl rfl rfl rfl

/-- R66: the bytes of a `move.b` of an immediate to a cell spell that instruction. -/
theorem instrAt_moveB_imm_mem {s : State} (hsrc : byteAt s 1 = 0x03) (hdest : byteAt s 3 = 0x02) :
    s.instrAt .moveB = .moveB (.imm (byteAt s 2)) (.mem (byteAt s 4)) := by
  simp [State.instrAt, instrOf, hsrc, hdest, operandOf]

/-- Settles O47: the step writes its own opcode's cell (R54) and has read its instruction before (R55). -/
theorem overwrittenOpcodeTakesEffectAtTheNextFetch :
    Obligations.OverwrittenOpcodeTakesEffectAtTheNextFetch := by
  rintro s v hat hlen hsrc rfl hdest hself
  have ⟨hrun, hpc, _⟩ := hat
  obtain ⟨t, hexec, ⟨hread, -, -⟩, hadvance, hstatus, -, hcfg⟩ :=
    exec_moveB_imm_mem (s := s) (v := byteAt s 2) (hself ▸ hpc)
  have hstep : step s = .next t := by
    rw [step_opcodeAt (op := .moveB) hat hlen, instrAt_moveB_imm_mem hsrc hdest, hexec]
  have ht : t.status = .running := hstatus.trans hrun
  exact ⟨t, hstep, ht, hadvance, ht, hcfg ▸ hpc, hself ▸ hread⟩

/-! ### The canonical form -/

/-- What a read of the first listed cell sees. -/
theorem Memory.lookup_cons_self (a : Nat) (v : Byte) (rest : Memory) :
    Memory.lookup ((a, v) :: rest) a = v := if_pos rfl

/-- What a read of any other cell sees. -/
theorem Memory.lookup_cons_of_ne {a b : Nat} (h : a ≠ b) (v : Byte) (rest : Memory) :
    Memory.lookup ((a, v) :: rest) b = Memory.lookup rest b := if_neg h

/-- An address below every listed cell reads as unlisted. -/
theorem Memory.lookup_of_lt {m : Memory} {a : Nat} (h : ∀ cell ∈ m, a < cell.1) :
    Memory.lookup m a = Config.unlistedCell := by
  induction m with
  | nil => rfl
  | cons cell rest ih =>
    obtain ⟨hlt, hrest⟩ := List.forall_mem_cons.1 h
    rw [Memory.lookup_cons_of_ne hlt.ne', ih hrest]

/-- Of two canonical memories that read alike, neither starts below the other: the first cell of the one
does not read as unlisted, as every address below the first cell of the other does. -/
theorem Memory.head_le_of_lookup_eq {a b : Nat} {v w : Byte} {rest rest' : Memory}
    (hm : Memory.wf ((a, v) :: rest) = true) (hm' : Memory.wf ((b, w) :: rest') = true)
    (h : Memory.lookup ((a, v) :: rest) a = Memory.lookup ((b, w) :: rest') a) : b ≤ a := by
  obtain ⟨hv, -, -⟩ := (Memory.wf_cons a v rest).1 hm
  obtain ⟨-, hlt, -⟩ := (Memory.wf_cons b w rest').1 hm'
  by_contra hba
  have hab : a < b := Nat.lt_of_not_le hba
  have hbelow : ∀ cell ∈ (b, w) :: rest', a < cell.1 :=
    List.forall_mem_cons.2 ⟨hab, fun cell hc => hab.trans (hlt cell hc)⟩
  rw [Memory.lookup_cons_self, Memory.lookup_of_lt hbelow] at h
  exact hv h

/-- A canonical memory that reads as unlisted everywhere lists no cell. -/
theorem Memory.eq_nil_of_lookup_eq {m : Memory} (hm : Memory.wf m = true)
    (h : ∀ a, Memory.lookup m a = Config.unlistedCell) : m = [] := by
  cases m with
  | nil => rfl
  | cons cell rest =>
    obtain ⟨hv, -, -⟩ := (Memory.wf_cons cell.1 cell.2 rest).1 hm
    exact absurd ((Memory.lookup_cons_self cell.1 cell.2 rest).symm.trans (h cell.1)) hv

/-- Settles O53, by induction on the first list: the first cells agree, and after them both lists read
alike. -/
theorem canonicalMemoriesThatReadAlikeAreEqual : Obligations.CanonicalMemoriesThatReadAlikeAreEqual := by
  intro m m' hm hm' h
  induction m generalizing m' with
  | nil => exact (Memory.eq_nil_of_lookup_eq hm' fun a => (h a).symm).symm
  | cons cell rest ih =>
    cases m' with
    | nil => exact Memory.eq_nil_of_lookup_eq hm h
    | cons cell' rest' =>
      obtain ⟨a, v⟩ := cell
      obtain ⟨b, w⟩ := cell'
      obtain rfl : a = b := Nat.le_antisymm (Memory.head_le_of_lookup_eq hm' hm (h b).symm)
        (Memory.head_le_of_lookup_eq hm hm' (h a))
      obtain ⟨-, hlt, hrest⟩ := (Memory.wf_cons a v rest).1 hm
      obtain ⟨-, hlt', hrest'⟩ := (Memory.wf_cons a w rest').1 hm'
      have hvw : v = w := by
        rw [← Memory.lookup_cons_self a v rest, h a, Memory.lookup_cons_self]
      have htail : ∀ c, Memory.lookup rest c = Memory.lookup rest' c := by
        intro c
        by_cases hc : a = c
        · subst hc
          rw [Memory.lookup_of_lt hlt, Memory.lookup_of_lt hlt']
        · rw [← Memory.lookup_cons_of_ne hc v rest, h c, Memory.lookup_cons_of_ne hc]
      rw [hvw, ih rest' hrest hrest' htail]

end Sys2Proof.Machine
end

section
/-! The encoding (30_encoding.md): the decoder accepts exactly the encodings of the well-formed
instructions, the tables it reads, and the fetch that finds too few bytes. -/

namespace Sys2Proof.Machine

/-! ### The fields of each format -/

/-- R62, format J: what the decoder reads is the target byte. -/
theorem takeTarget_eq_ok_iff {make : Byte → Instr} {fields rest : List Byte} {i : Instr} :
    takeTarget make fields = .ok (i, rest) ↔ ∃ target, i = make target ∧ fields = target :: rest := by
  constructor
  · intro h
    unfold takeTarget at h
    split at h
    · cases h
      exact ⟨_, rfl, rfl⟩
    · cases h
  · rintro ⟨target, rfl, rfl⟩
    rfl

/-- R62, format U: what the decoder reads are the two bytes of one well-formed operand. -/
theorem takeOne_eq_ok_iff {make : Operand → Instr} {fields rest : List Byte} {i : Instr} :
    takeOne make fields = .ok (i, rest) ↔
      ∃ dest : Operand, i = make dest ∧ dest.wellFormed = true ∧ fields = encodeOperand dest ++ rest := by
  constructor
  · intro h
    unfold takeOne at h
    split at h
    next dt dv _ =>
      cases h
      obtain ⟨hwf, htag, hvalue⟩ := operandOf_spec dt dv
      exact ⟨_, rfl, hwf, by simp [encodeOperand, htag, hvalue]⟩
    next => cases h
  · rintro ⟨dest, rfl, hwf, rfl⟩
    simp [encodeOperand, takeOne, operandOf_tag_valueByte dest hwf]

/-- R62, format B: what the decoder reads are the four bytes of two well-formed operands. -/
theorem takeTwo_eq_ok_iff {make : Operand → Operand → Instr} {fields rest : List Byte} {i : Instr} :
    takeTwo make fields = .ok (i, rest) ↔
      ∃ src dest : Operand, i = make src dest ∧ (src.wellFormed && dest.wellFormed) = true ∧
        fields = encodeOperand src ++ encodeOperand dest ++ rest := by
  constructor
  · intro h
    unfold takeTwo at h
    split at h
    next st sv dt dv _ =>
      cases h
      obtain ⟨hsrc, hst, hsv⟩ := operandOf_spec st sv
      obtain ⟨hdest, hdt, hdv⟩ := operandOf_spec dt dv
      exact ⟨_, _, rfl, by simp [hsrc, hdest], by simp [encodeOperand, hst, hsv, hdt, hdv]⟩
    next => cases h
  · rintro ⟨src, dest, rfl, hwf, rfl⟩
    obtain ⟨hsrc, hdest⟩ := Bool.and_eq_true_iff.1 hwf
    simp [encodeOperand, takeTwo, operandOf_tag_valueByte src hsrc, operandOf_tag_valueByte dest hdest]

/-! ### The decoder and the encoder -/

/-- R71: the decoder reads the fields of the row that the opcode byte selects. -/
theorem decode_code_cons (op : Op) (fields : List Byte) :
    decode (op.code :: fields) = decodeFields op fields := by
  simp only [decode, lookupOpcode_code]

/-- R71: bytes that decode start with the opcode byte of a row, whose fields follow. -/
theorem exists_decodeFields_of_decode {bytes rest : List Byte} {i : Instr}
    (h : decode bytes = .ok (i, rest)) :
    ∃ (op : Op) (fields : List Byte), bytes = op.code :: fields ∧ decodeFields op fields = .ok (i, rest) := by
  cases bytes with
  | nil => cases h
  | cons opcode fields =>
    cases hop : lookupOpcode opcode with
    | none => simp [decode, hop] at h
    | some op =>
      obtain rfl := lookupOpcode_eq_some hop
      exact ⟨op, fields, rfl, (decode_code_cons op fields).symm.trans h⟩

/-- R62, R77: the fields of a well-formed instruction decode to it, in each row of the opcode map. -/
theorem decodeFields_encodeFields {i : Instr} (hwf : i.wellFormed = true) (rest : List Byte) :
    decodeFields i.op (encodeFields i ++ rest) = .ok (i, rest) := by
  cases i with
  | noop | halt => rfl
  | jmp target | jnz target | jng target | jeq target | jne target => rfl
  | inc dest | dec dest => exact takeOne_eq_ok_iff.2 ⟨dest, rfl, hwf, rfl⟩
  | moveB src dest | addB src dest | subB src dest | mulB src dest | divB src dest | cmpB src dest =>
    exact takeTwo_eq_ok_iff.2 ⟨src, dest, rfl, hwf, rfl⟩

/-- Settles O3. -/
theorem decodeInvertsEncode : Obligations.DecodeInvertsEncode := by
  intro i rest hwf
  calc decode (encode i ++ rest) = decodeFields i.op (encodeFields i ++ rest) := decode_code_cons _ _
    _ = .ok (i, rest) := decodeFields_encodeFields hwf rest

/-- R62, R76: in each row of the opcode map, fields that decode are those of a well-formed instruction
of that row. -/
theorem encodeFields_of_decodeFields {op : Op} {fields rest : List Byte} {i : Instr}
    (h : decodeFields op fields = .ok (i, rest)) :
    i.op = op ∧ i.wellFormed = true ∧ fields = encodeFields i ++ rest := by
  cases op with
  | noop | halt =>
    cases h
    exact ⟨rfl, rfl, rfl⟩
  | jmp | jnz | jng | jeq | jne =>
    obtain ⟨target, rfl, rfl⟩ := takeTarget_eq_ok_iff.1 h
    exact ⟨rfl, rfl, rfl⟩
  | inc | dec =>
    obtain ⟨dest, rfl, hwf, rfl⟩ := takeOne_eq_ok_iff.1 h
    exact ⟨rfl, hwf, rfl⟩
  | moveB | addB | subB | mulB | divB | cmpB =>
    obtain ⟨src, dest, rfl, hwf, rfl⟩ := takeTwo_eq_ok_iff.1 h
    exact ⟨rfl, hwf, rfl⟩

/-- Settles O4. -/
theorem decodedBytesAreTheEncoding : Obligations.DecodedBytesAreTheEncoding := by
  intro bytes i rest h
  obtain ⟨op, fields, rfl, hfields⟩ := exists_decodeFields_of_decode h
  obtain ⟨rfl, hwf, rfl⟩ := encodeFields_of_decodeFields hfields
  exact ⟨hwf, rfl⟩

/-- Settles O5. The bytes decode because none is missing, and O4 says whose encoding they are. -/
theorem everyFieldByteSurvivesDecoding : Obligations.EveryFieldByteSurvivesDecoding := by
  intro op fields rest hlen
  have hdecode := decode_long op (fields ++ rest) (by rw [List.length_append]; omega)
  have hrest : (fields ++ rest).drop (op.length - 1) = rest := List.drop_left' (by omega)
  rw [hrest] at hdecode
  obtain ⟨-, hbytes⟩ := decodedBytesAreTheEncoding _ _ _ hdecode
  exact ⟨_, instrOf_op op _ _ _ _, hdecode, (List.append_cancel_right hbytes).symm⟩

/-! ### The tables -/

/-- Settles O6: each operand kind is what its own tag and value byte stand for. -/
theorem tagByteNamesTheOperandKind : Obligations.TagByteNamesTheOperandKind :=
  ⟨fun v => operandOf_tag_valueByte (.dreg v) rfl, fun v => operandOf_tag_valueByte (.areg v) rfl,
    fun v => operandOf_tag_valueByte (.mem v) rfl, fun v => operandOf_tag_valueByte (.imm v) rfl,
    fun tag v h => operandOf_tag_valueByte (.unassigned tag v) (decide_eq_true h)⟩

/-- Settles O7: each word is the encoding of its instruction, then the bytes left over. -/
theorem wordsOfTheSpecDecode : Obligations.WordsOfTheSpecDecode :=
  ⟨decodeInvertsEncode (.moveB (.imm 0x05) (.dreg 0x00)) [] rfl,
    decodeInvertsEncode (.divB (.dreg 0x01) (.dreg 0x03)) [] rfl,
    decodeInvertsEncode (.inc (.mem 0x40)) [0x01] rfl,
    decodeInvertsEncode (.cmpB (.imm 0x01) (.imm 0x02)) [] rfl,
    decodeInvertsEncode (.jeq 0x11) [] rfl,
    decodeInvertsEncode .halt [0x00] rfl⟩

/-- R64: the opcode bytes of the map lie below 0x0F. -/
theorem Op.code_toNat_lt (op : Op) : op.code.toNat < 0x0F := by
  cases op <;> decide

/-- R65: exactly the bytes from 0x0F on are unassigned. -/
theorem lookupOpcode_eq_none_iff (b : Byte) : lookupOpcode b = none ↔ 0x0F ≤ b.toNat := by
  refine ⟨le_toNat_of_lookupOpcode_eq_none, fun hb => ?_⟩
  cases hop : lookupOpcode b with
  | none => rfl
  | some op =>
    have hlt : b.toNat < 0x0F := lookupOpcode_eq_some hop ▸ Op.code_toNat_lt op
    omega

/-- Settles O8. -/
theorem opcodeMapIsTheTable : Obligations.OpcodeMapIsTheTable := ⟨rfl, lookupOpcode_eq_none_iff⟩

/-! ### The fetch -/

/-- R71, R113: the step of a running machine whose pc lies outside memory. -/
theorem step_outside {s : State} (hs : s.status = .running) (hpc : s.cfg.memCap ≤ s.pc.toNat) :
    step s = .next (s.raise (.outOfBounds .fetch s.pc.toNat)) := by
  simp [step, hs, s.fetch_outside hpc]

/-- Settles O11. -/
theorem fetchOutsideMemoryFaults : Obligations.FetchOutsideMemoryFaults :=
  ⟨fun s hs hpc => ⟨_, step_outside hs hpc, faulted_outOfBounds s .fetch s.pc.toNat⟩,
    fun s _ hat hlen =>
      ⟨_, step_opcodeAt_truncated hat hlen, faulted_outOfBounds s .fetch s.cfg.memCap⟩⟩

end Sys2Proof.Machine
end

section
/-! Data movement (40_move.md R88): `move.b` as a term and as bytes at pc, with the checks of
format B in the order of R113. -/

namespace Sys2Proof.Machine

/-! ### The checks of format B, in their order (R72, R73, R113) -/

section Checks

variable {op : Op} {src dest : Operand} {cfg : Config} {a d : Place} {r : Raise}

theorem resolveTwo_of_src_refused (ha : admitted (srcAdmits op) src = .error r) :
    resolveTwo op src dest cfg = .error r := by simp [resolveTwo, ha]

theorem resolveTwo_of_dest_refused (ha : admitted (srcAdmits op) src = .ok a)
    (hd : admitted (destAdmits op) dest = .error r) : resolveTwo op src dest cfg = .error r := by
  simp [resolveTwo, ha, hd]

theorem resolveTwo_of_src_outside (ha : admitted (srcAdmits op) src = .ok a)
    (hd : admitted (destAdmits op) dest = .ok d) (har : checkRange cfg a = .error r) :
    resolveTwo op src dest cfg = .error r := by simp [resolveTwo, ha, hd, har]

theorem resolveTwo_of_dest_outside (ha : admitted (srcAdmits op) src = .ok a)
    (hd : admitted (destAdmits op) dest = .ok d) (har : a.inRange cfg)
    (hdr : checkRange cfg d = .error r) : resolveTwo op src dest cfg = .error r := by
  simp [resolveTwo, ha, hd, checkRange_eq_ok.2 har, hdr]

theorem resolveTwo_of_inRange (ha : admitted (srcAdmits op) src = .ok a)
    (hd : admitted (destAdmits op) dest = .ok d) (har : a.inRange cfg) (hdr : d.inRange cfg) :
    resolveTwo op src dest cfg = .ok (a, d) := by
  simp [resolveTwo, ha, hd, checkRange_eq_ok.2 har, checkRange_eq_ok.2 hdr]

/-- R73: a register that does not exist. -/
theorem checkRange_dreg_outside {i : Byte} (h : cfg.numDregs ≤ i.toNat) :
    checkRange cfg (.dreg i) = .error (.outOfBounds .register i.toNat) := by
  simp [checkRange, Nat.not_lt.2 h]

/-- R73: a cell that does not exist. -/
theorem checkRange_mem_outside {address : Byte} (h : cfg.memCap ≤ address.toNat) :
    checkRange cfg (.mem address) = .error (.outOfBounds .data address.toNat) := by
  simp [checkRange, Nat.not_lt.2 h]

end Checks

/-- R37: an instruction of format B whose checks fail takes the fault. -/
theorem withTwo_of_resolveTwo_error {op : Op} {src dest : Operand} {s : State}
    {f : Place → Place → State} {r : Raise} (h : resolveTwo op src dest s.cfg = .error r) :
    withTwo op src dest s f = .next (s.raise r) := by rw [withTwo, h]

/-- R36, R37: the step at the bytes of any instruction of format B whose checks fail. -/
theorem step_of_resolveTwo_error {s : State} {op : Op} {r : Raise} (hB : op.format = .B)
    (hat : OpcodeAt s op.code) (hlen : s.pc.toNat + op.length ≤ s.cfg.memCap)
    (h : resolveTwo op (operandOf (byteAt s 1) (byteAt s 2)) (operandOf (byteAt s 3) (byteAt s 4))
      s.cfg = .error r) : step s = .next (s.raise r) := by
  rw [step_opcodeAt hat hlen]
  cases op with
  | moveB | addB | subB | mulB | divB | cmpB => exact withTwo_of_resolveTwo_error h
  | noop | halt | inc | dec | jmp | jnz | jng | jeq | jne => cases hB

/-! ### The source operand -/

/-- R68, R72 to R74: a source operand that has a value passes its checks and reads as it. -/
theorem SourceValue.exists_place {s : State} {src : Operand} {v : Byte} (h : SourceValue s src v) :
    ∃ a, admitted [.dreg, .imm] src = .ok a ∧ a.inRange s.cfg ∧ s.readPlace a = v := by
  cases src with
  | dreg index =>
    obtain ⟨hindex, rfl⟩ := h
    exact ⟨.dreg index, rfl, hindex, rfl⟩
  | imm value =>
    obtain rfl : v = value := h
    exact ⟨.imm v, rfl, trivial, rfl⟩
  | areg | mem | unassigned => exact h.elim

/-- R66, R69: the value of a source operand given by its bytes, when its tag is admitted and its
register exists. -/
theorem sourceValue_operandOf {s : State} {tag value : Byte} (htag : tag = 0x00 ∨ tag = 0x03)
    (hindex : tag = 0x00 → value.toNat < s.cfg.numDregs) :
    SourceValue s (operandOf tag value) (sourceByte s tag value) := by
  rcases htag with rfl | rfl
  · exact ⟨hindex rfl, rfl⟩
  · exact rfl

/-- R72: the tags that a slot for a register or an immediate admits. -/
theorem admitted_dreg_imm {tag : Byte} (htag : tag = 0x00 ∨ tag = 0x03) (value : Byte) :
    ∃ a, admitted [.dreg, .imm] (operandOf tag value) = .ok a := by
  rcases htag with rfl | rfl
  · exact ⟨.dreg value, rfl⟩
  · exact ⟨.imm value, rfl⟩

/-- R72: every other tag is refused by such a slot. -/
theorem admitted_dreg_imm_refused {tag : Byte} (htag : tag ≠ 0x00 ∧ tag ≠ 0x03) (value : Byte) :
    admitted [.dreg, .imm] (operandOf tag value) = .error (.unsupportedAddressingMode tag) := by
  obtain ⟨h0, h3⟩ : tag ≠ 0#8 ∧ tag ≠ 3#8 := htag
  simp [admitted_operandOf, h0, h3]

/-! ### The destination operand -/

/-- R72: the tags that a slot for a register or a cell admits. -/
theorem admitted_dreg_mem {tag : Byte} (htag : tag = 0x00 ∨ tag = 0x02) (value : Byte) :
    ∃ d, admitted [.dreg, .mem] (operandOf tag value) = .ok d := by
  rcases htag with rfl | rfl
  · exact ⟨.dreg value, rfl⟩
  · exact ⟨.mem value, rfl⟩

/-- R72: every other tag is refused by such a slot. -/
theorem admitted_dreg_mem_refused {tag : Byte} (htag : tag ≠ 0x00 ∧ tag ≠ 0x02) (value : Byte) :
    admitted [.dreg, .mem] (operandOf tag value) = .error (.unsupportedAddressingMode tag) := by
  obtain ⟨h0, h2⟩ : tag ≠ 0#8 ∧ tag ≠ 2#8 := htag
  simp [admitted_operandOf, h0, h2]

/-! ### `move.b` completes -/

/-- Settles O30. -/
theorem moveToRegisterCompletes : Obligations.MoveToRegisterCompletes := by
  intro s src v index hsrc hindex
  obtain ⟨a, ha, har, rfl⟩ := hsrc.exists_place
  exact ⟨_, withTwo_of_resolveTwo (resolveTwo_of_inRange ha rfl har hindex),
    registerWritten_of s _ index _ rfl rfl, rfl, advanced_of s _ .moveB 5 rfl rfl rfl rfl rfl⟩

/-- Settles O31. -/
theorem moveToMemoryCompletes : Obligations.MoveToMemoryCompletes := by
  intro s src v address hsrc haddress
  obtain ⟨a, ha, har, rfl⟩ := hsrc.exists_place
  exact ⟨_, withTwo_of_resolveTwo (resolveTwo_of_inRange ha rfl har haddress),
    cellWritten_of s _ address _ rfl rfl, rfl, advanced_of s _ .moveB 5 rfl rfl rfl rfl rfl⟩

/-! ### `move.b` at the bytes in memory -/

/-- R88: a `move.b` whose destination, given by its bytes, exists writes the register or the cell
that the destination's tag names. -/
theorem exec_moveB_operandOf {s : State} {src : Operand} {v tag value : Byte}
    (hsrc : SourceValue s src v) (htag : tag = 0x00 ∨ tag = 0x02)
    (hindex : tag = 0x00 → value.toNat < s.cfg.numDregs)
    (haddress : tag = 0x02 → value.toNat < s.cfg.memCap) :
    ∃ t, exec (.moveB src (operandOf tag value)) s = .next t ∧
      (if tag = 0x00 then
        RegisterWritten s t value.toNat v ∧ FlagsOfResult t v (s.readDreg value.toNat) v
      else
        CellWritten s t value.toNat v ∧ FlagsOfResult t v (s.readMem value.toNat) v) ∧
      Advanced s t 5 := by
  rcases htag with rfl | rfl
  · obtain ⟨t, ht, hwritten, hflags, hadvanced⟩ :=
      moveToRegisterCompletes s src v value hsrc (hindex rfl)
    exact ⟨t, ht, ⟨hwritten, hflags⟩, hadvanced⟩
  · obtain ⟨t, ht, hwritten, hflags, hadvanced⟩ :=
      moveToMemoryCompletes s src v value hsrc (haddress rfl)
    exact ⟨t, ht, ⟨hwritten, hflags⟩, hadvanced⟩

/-- Settles O22, clause by clause: the checks fail in the order of R113, and a `move.b` that passes
them all completes as O30 and O31 say. -/
theorem moveFollowsItsRule : Obligations.MoveFollowsItsRule := by
  intro s hat
  obtain ⟨t, ht⟩ := exists_step_eq_next s
  refine ⟨t, ht, ?_⟩
  intro st sv dt dv v
  have answer {u : State} (h : step s = .next u) : u = t := Host.Outcome.next.inj (h.symm.trans ht)
  by_cases hlen : s.cfg.memCap < s.pc.toNat + 5
  · rw [if_pos hlen, ← answer (step_opcodeAt_truncated (op := .moveB) hat hlen)]
    exact faulted_outOfBounds s .fetch s.cfg.memCap
  have hinside : s.pc.toNat + Op.moveB.length ≤ s.cfg.memCap := Nat.not_lt.1 hlen
  have refused {r : Raise}
      (h : resolveTwo .moveB (operandOf st sv) (operandOf dt dv) s.cfg = .error r) :
      s.raise r = t := answer (step_of_resolveTwo_error (op := .moveB) rfl hat hinside h)
  rw [if_neg hlen]
  by_cases hst : st ≠ 0x00 ∧ st ≠ 0x03
  · rw [if_pos hst, ← refused (resolveTwo_of_src_refused (admitted_dreg_imm_refused hst sv))]
    exact faulted_unsupportedAddressingMode s st
  have hsrcTag : st = 0x00 ∨ st = 0x03 := or_iff_not_and_not.2 hst
  obtain ⟨a, ha⟩ := admitted_dreg_imm hsrcTag sv
  rw [if_neg hst]
  by_cases hdt : dt ≠ 0x00 ∧ dt ≠ 0x02
  · rw [if_pos hdt, ← refused (resolveTwo_of_dest_refused ha (admitted_dreg_mem_refused hdt dv))]
    exact faulted_unsupportedAddressingMode s dt
  have hdestTag : dt = 0x00 ∨ dt = 0x02 := or_iff_not_and_not.2 hdt
  obtain ⟨d, hd⟩ := admitted_dreg_mem hdestTag dv
  rw [if_neg hdt]
  by_cases hsreg : st = 0x00 ∧ s.cfg.numDregs ≤ sv.toNat
  · obtain ⟨hst0, hsv⟩ := hsreg
    have ha' : admitted (srcAdmits .moveB) (operandOf st sv) = .ok (.dreg sv) := by rw [hst0]; rfl
    rw [if_pos ⟨hst0, hsv⟩,
      ← refused (resolveTwo_of_src_outside ha' hd (checkRange_dreg_outside hsv))]
    exact faulted_outOfBounds s .register sv.toNat
  have hsrc : SourceValue s (operandOf st sv) v :=
    sourceValue_operandOf hsrcTag fun h => Nat.not_le.1 (not_and.1 hsreg h)
  obtain ⟨b, hb, hbr, -⟩ := hsrc.exists_place
  rw [if_neg hsreg]
  by_cases hdreg : dt = 0x00 ∧ s.cfg.numDregs ≤ dv.toNat
  · obtain ⟨hdt0, hdv⟩ := hdreg
    have hd' : admitted (destAdmits .moveB) (operandOf dt dv) = .ok (.dreg dv) := by rw [hdt0]; rfl
    rw [if_pos ⟨hdt0, hdv⟩,
      ← refused (resolveTwo_of_dest_outside hb hd' hbr (checkRange_dreg_outside hdv))]
    exact faulted_outOfBounds s .register dv.toNat
  rw [if_neg hdreg]
  by_cases hdmem : dt = 0x02 ∧ s.cfg.memCap ≤ dv.toNat
  · obtain ⟨hdt2, hdv⟩ := hdmem
    have hd' : admitted (destAdmits .moveB) (operandOf dt dv) = .ok (.mem dv) := by rw [hdt2]; rfl
    rw [if_pos ⟨hdt2, hdv⟩,
      ← refused (resolveTwo_of_dest_outside hb hd' hbr (checkRange_mem_outside hdv))]
    exact faulted_outOfBounds s .data dv.toNat
  rw [if_neg hdmem]
  obtain ⟨u, hexec, hwritten⟩ := exec_moveB_operandOf hsrc hdestTag
    (fun h => Nat.not_le.1 (not_and.1 hdreg h)) (fun h => Nat.not_le.1 (not_and.1 hdmem h))
  cases answer ((step_opcodeAt (op := .moveB) hat hinside).trans hexec)
  exact hwritten

end Sys2Proof.Machine
end

section
/-! Arithmetic (41_arithmetic.md R90 to R96): the instructions as terms, the table of quotients, and
the instructions as bytes at pc, with the checks in the order of R113. -/

namespace Sys2Proof.Machine

/-! ### Two operands, into a register (R90 to R93) -/

/-- R68: what else holds of the instructions whose destination can only be a register. -/
theorem format_srcAdmits_of_destAdmits_dreg {op : Op} (h : destAdmits op = [.dreg]) :
    op.format = .B ∧ srcAdmits op = [.dreg, .imm] := by
  cases op with
  | addB | subB | mulB | divB => exact ⟨rfl, rfl⟩
  | noop | halt | moveB | inc | dec | cmpB | jmp | jnz | jng | jeq | jne => cases h

/-- R72, R73: with a source that has a value and a register that exists, the checks pass, and the
instruction executes on a place that reads as that value. -/
theorem withTwo_of_sourceValue {op : Op} {s : State} {src : Operand} {a index : Byte}
    (hop : destAdmits op = [.dreg]) (hsrc : SourceValue s src a)
    (hindex : index.toNat < s.cfg.numDregs) :
    ∃ p, s.readPlace p = a ∧
      ∀ f, withTwo op src (.dreg index) s f = .next (f p (.dreg index)) := by
  obtain ⟨p, hp, hrange, hread⟩ := hsrc.exists_place
  rw [← (format_srcAdmits_of_destAdmits_dreg hop).2] at hp
  have hd : admitted (destAdmits op) (.dreg index) = .ok (.dreg index) := by rw [hop]; rfl
  exact ⟨p, hread, fun _ => withTwo_of_resolveTwo (resolveTwo_of_inRange hp hd hrange hindex)⟩

/-- R89: what an operation on a register leaves. -/
theorem State.combine_dreg (s : State) {op : Op} (hB : op.format = .B) (f : Byte → Byte → Byte)
    (p : Place) (index : Byte) :
    let t := s.combine op f p (.dreg index)
    let a := s.readPlace p
    let b := s.readDreg index.toNat
    RegisterWritten s t index.toNat (f b a) ∧ FlagsOfResult t (f b a) b a ∧ Advanced s t 5 :=
  ⟨registerWritten_of s _ index _ rfl rfl, rfl,
    advanced_of s _ op 5 (congrArg Format.length hB) rfl rfl rfl rfl⟩

/-- R89: an operation whose operands are admitted and exist completes. -/
theorem withTwo_combine_completes {op : Op} (f : Byte → Byte → Byte) {s : State} {src : Operand}
    {a index : Byte} (hop : destAdmits op = [.dreg]) (hsrc : SourceValue s src a)
    (hindex : index.toNat < s.cfg.numDregs) :
    ∃ t, withTwo op src (.dreg index) s (s.combine op f) = .next t ∧
      let b := s.readDreg index.toNat
      RegisterWritten s t index.toNat (f b a) ∧ FlagsOfResult t (f b a) b a ∧ Advanced s t 5 := by
  obtain ⟨p, rfl, hexec⟩ := withTwo_of_sourceValue hop hsrc hindex
  exact ⟨_, hexec _, s.combine_dreg (format_srcAdmits_of_destAdmits_dreg hop).1 f p index⟩

/-- Settles O32. -/
theorem addCompletes : Obligations.AddCompletes :=
  fun _ _ _ _ hsrc hindex => withTwo_combine_completes (op := .addB) addBytes rfl hsrc hindex

/-- Settles O33. -/
theorem subCompletes : Obligations.SubCompletes :=
  fun _ _ _ _ hsrc hindex => withTwo_combine_completes (op := .subB) subBytes rfl hsrc hindex

/-- Settles O34. -/
theorem mulCompletes : Obligations.MulCompletes :=
  fun _ _ _ _ hsrc hindex => withTwo_combine_completes (op := .mulB) mulBytes rfl hsrc hindex

/-! ### Division (R93, R94) -/

/-- R93, R10: the two roundings. -/
theorem quotient_eq (round : DivRound) (dividend divisor : Int) :
    quotient round dividend divisor =
      if round = .trunc then dividend.tdiv divisor else dividend.fdiv divisor := by
  cases round <;> rfl

/-- R93, R111: once its operands have passed the checks, a `div.b` by zero takes its fault. -/
theorem exec_divB_zero {s : State} {src : Operand} {index : Byte} (hsrc : SourceValue s src 0x00)
    (hindex : index.toNat < s.cfg.numDregs) :
    exec (.divB src (.dreg index)) s = .next (s.raise .divisionByZero) := by
  obtain ⟨p, hp, hexec⟩ := withTwo_of_sourceValue (op := .divB) rfl hsrc hindex
  exact (hexec _).trans (by rw [if_pos hp])

/-- R93: with a divisor that is not zero, `div.b` is an operation like the others. -/
theorem exec_divB_completes {s : State} {src : Operand} {a b index : Byte}
    (hsrc : SourceValue s src a) (hindex : index.toNat < s.cfg.numDregs) (hne : a ≠ 0x00)
    (hb : s.readDreg index.toNat = b) :
    ∃ t, exec (.divB src (.dreg index)) s = .next t ∧
      RegisterWritten s t index.toNat (divBytes s.cfg.divRound b a) ∧
      FlagsOfResult t (divBytes s.cfg.divRound b a) b a ∧ Advanced s t 5 := by
  obtain ⟨p, rfl, hexec⟩ := withTwo_of_sourceValue (op := .divB) rfl hsrc hindex
  subst hb
  exact ⟨_, (hexec _).trans (by rw [if_neg hne]), s.combine_dreg rfl _ p index⟩

/-- Settles O35. -/
theorem divCompletes : Obligations.DivCompletes := by
  intro s src a index hsrc hindex hne
  simp only [← quotient_eq]
  exact exec_divB_completes hsrc hindex hne rfl

/-- R94: what a row `(dividend, divisor, result, N, Z)` of the table says of the quotient. -/
abbrev DivisionRowHolds (row : Byte × Byte × Byte × Bool × Bool) : Prop :=
  row.2.1 ≠ 0x00 ∧ divBytes .trunc row.1 row.2.1 = row.2.2.1 ∧
    row.2.2.1.getLsbD 7 = row.2.2.2.1 ∧ decide (row.2.2.1 = 0x00) = row.2.2.2.2

/-- R93, R94: a `div.b` of `d0` by an immediate does what a row of the table says. -/
theorem exec_divB_of_row {s : State} {row : Byte × Byte × Byte × Bool × Bool}
    (htrunc : s.cfg.divRound = .trunc) (hrow : DivisionRowHolds row) (hd : s.readDreg 0 = row.1) :
    ∃ t, exec (.divB (.imm row.2.1) (.dreg 0x00)) s = .next t ∧
      t.readDreg 0 = row.2.2.1 ∧ t.flags.n = row.2.2.2.1 ∧ t.flags.z = row.2.2.2.2 := by
  obtain ⟨hne, hresult, hn, hz⟩ := hrow
  obtain ⟨t, hexec, ⟨hwritten, -, -⟩, hflags, -⟩ :=
    exec_divB_completes (src := .imm row.2.1) (index := 0x00) rfl (Nat.succ_pos _) hne hd
  rw [htrunc, hresult] at hwritten hflags
  exact ⟨t, hexec, hwritten, by rw [hflags, hn], by rw [hflags, hz]⟩

/-- Settles O36: each row holds of the integers it names, and the operands of the last one pass the
checks. -/
theorem divisionTableOfTheSpec : Obligations.DivisionTableOfTheSpec := by
  intro s htrunc
  refine ⟨fun row hmem => exec_divB_of_row htrunc ?_,
    _, exec_divB_zero rfl (Nat.succ_pos _), faulted_divisionByZero s⟩
  revert row
  repeat refine List.forall_mem_cons.2 ⟨by decide, ?_⟩
  exact List.forall_mem_nil _

/-! ### `inc` and `dec` (R95, R96) -/

/-- R68: `inc` and `dec` admit a register, a cell and an immediate. -/
theorem destAdmits_of_format_U {op : Op} (h : op.format = .U) :
    destAdmits op = [.dreg, .mem, .imm] := by
  cases op with
  | inc | dec => rfl
  | noop | halt | moveB | addB | subB | mulB | divB | cmpB | jmp | jnz | jng | jeq | jne => cases h

/-- R72, R73: an operand of format U that is admitted and exists. -/
theorem withOne_of_inRange {op : Op} {dest : Operand} {s : State} {f : Place → State} {d : Place}
    (hd : admitted (destAdmits op) dest = .ok d) (hrange : d.inRange s.cfg) :
    withOne op dest s f = .next (f d) := by
  simp [withOne, resolveOne, hd, checkRange_eq_ok.2 hrange]

section Count

variable {op : Op} (hU : op.format = .U) (f : Byte → Byte) (s : State)
include hU

/-- R95, R96: what counting leaves in flags, pc and control, on every operand kind. -/
theorem State.count_flags_advanced (d : Place) :
    FlagsOfStep s (s.count op f d) (f (s.readPlace d)) ∧ Advanced s (s.count op f d) 3 := by
  refine ⟨rfl, advanced_of s _ op 3 (congrArg Format.length hU) ?_ ?_ ?_ ?_⟩ <;> simp [State.count]

/-- R95, R96: counting in a register that exists. -/
theorem withOne_count_dreg {v : Byte} (hv : v.toNat < s.cfg.numDregs) :
    ∃ t, withOne op (.dreg v) s (s.count op f) = .next t ∧
      RegisterWritten s t v.toNat (f (s.readDreg v.toNat)) ∧
      FlagsOfStep s t (f (s.readDreg v.toNat)) ∧ Advanced s t 3 := by
  have hd : admitted (destAdmits op) (.dreg v) = .ok (.dreg v) := by
    rw [destAdmits_of_format_U hU]; rfl
  exact ⟨_, withOne_of_inRange hd hv, registerWritten_of s _ v _ rfl rfl,
    State.count_flags_advanced hU f s _⟩

/-- R95, R96: counting in a cell that exists. -/
theorem withOne_count_mem {v : Byte} (hv : v.toNat < s.cfg.memCap) :
    ∃ t, withOne op (.mem v) s (s.count op f) = .next t ∧
      CellWritten s t v.toNat (f (s.readMem v.toNat)) ∧
      FlagsOfStep s t (f (s.readMem v.toNat)) ∧ Advanced s t 3 := by
  have hd : admitted (destAdmits op) (.mem v) = .ok (.mem v) := by
    rw [destAdmits_of_format_U hU]; rfl
  exact ⟨_, withOne_of_inRange hd hv, cellWritten_of s _ v _ rfl rfl,
    State.count_flags_advanced hU f s _⟩

/-- R95, R96, R75: counting on an immediate sets the flags and writes nothing. -/
theorem withOne_count_imm (v : Byte) :
    ∃ t, withOne op (.imm v) s (s.count op f) = .next t ∧
      NothingWritten s t ∧ FlagsOfStep s t (f v) ∧ Advanced s t 3 := by
  have hd : admitted (destAdmits op) (.imm v) = .ok (.imm v) := by
    rw [destAdmits_of_format_U hU]; rfl
  exact ⟨_, withOne_of_inRange hd trivial, nothingWritten_of s _ rfl rfl,
    State.count_flags_advanced hU f s _⟩

end Count

/-- Settles O37. -/
theorem incCompletes : Obligations.IncCompletes := fun s v =>
  ⟨withOne_count_dreg (op := .inc) rfl incByte s, withOne_count_mem (op := .inc) rfl incByte s,
    withOne_count_imm (op := .inc) rfl incByte s v⟩

/-- Settles O38. -/
theorem decCompletes : Obligations.DecCompletes := fun s v =>
  ⟨withOne_count_dreg (op := .dec) rfl decByte s, withOne_count_mem (op := .dec) rfl decByte s,
    withOne_count_imm (op := .dec) rfl decByte s v⟩

/-! ### The instructions as bytes at pc -/

/-- R72: what a slot for a register alone answers to every other tag. -/
theorem admitted_dreg_refused {tag : Byte} (htag : tag ≠ 0x00) (value : Byte) :
    admitted [.dreg] (operandOf tag value) = .error (.unsupportedAddressingMode tag) := by
  have h0 : tag ≠ 0#8 := htag
  simp [admitted_operandOf, h0]

/-- R37, R113: the checks of the bytes of a two-operand instruction into a register fail in this
order; where all pass, `P` says what the execute phase leaves. -/
theorem step_destDreg_checks {op : Op} {s : State} {P : State → Prop}
    (hop : destAdmits op = [.dreg]) (hat : OpcodeAt s op.code) :
    let st := byteAt s 1
    let sv := byteAt s 2
    let dt := byteAt s 3
    let dv := byteAt s 4
    (SourceValue s (operandOf st sv) (sourceByte s st sv) → dv.toNat < s.cfg.numDregs →
      ∃ t, exec (instrOf op st sv 0x00 dv) s = .next t ∧ P t) →
    ∃ t, step s = .next t ∧
      if s.cfg.memCap < s.pc.toNat + 5 then Faulted s t .outOfBounds .fetch s.cfg.memCap
      else if st ≠ 0x00 ∧ st ≠ 0x03 then Faulted s t .unsupportedAddressingMode .none st.toNat
      else if dt ≠ 0x00 then Faulted s t .unsupportedAddressingMode .none dt.toNat
      else if st = 0x00 ∧ s.cfg.numDregs ≤ sv.toNat then Faulted s t .outOfBounds .register sv.toNat
      else if s.cfg.numDregs ≤ dv.toNat then Faulted s t .outOfBounds .register dv.toNat
      else P t := by
  intro st sv dt dv hdone
  obtain ⟨hB, hsrcAdmits⟩ := format_srcAdmits_of_destAdmits_dreg hop
  have hlength : op.length = 5 := congrArg Format.length hB
  split_ifs with hlen hst hdt hsreg hdreg
  · exact ⟨_, step_opcodeAt_truncated hat (hlength ▸ hlen), faulted_outOfBounds s .fetch _⟩
  all_goals
    have hinside : s.pc.toNat + op.length ≤ s.cfg.memCap := hlength ▸ Nat.not_lt.1 hlen
    have refused {r : Raise} := step_of_resolveTwo_error (r := r) hB hat hinside
  · exact ⟨_, refused (resolveTwo_of_src_refused (hsrcAdmits ▸ admitted_dreg_imm_refused hst sv)),
      faulted_unsupportedAddressingMode s st⟩
  all_goals have hsrcTag : st = 0x00 ∨ st = 0x03 := or_iff_not_and_not.2 hst
  · obtain ⟨a, ha⟩ := hsrcAdmits ▸ admitted_dreg_imm hsrcTag sv
    exact ⟨_, refused (resolveTwo_of_dest_refused ha (hop ▸ admitted_dreg_refused hdt dv)),
      faulted_unsupportedAddressingMode s dt⟩
  all_goals
    have hdt0 : dt = 0x00 := not_not.1 hdt
    have hd : admitted (destAdmits op) (operandOf dt dv) = .ok (.dreg dv) := by rw [hop, hdt0]; rfl
  · have ha' : admitted (srcAdmits op) (operandOf st sv) = .ok (.dreg sv) := by
      rw [hsrcAdmits, hsreg.1]; rfl
    exact ⟨_, refused (resolveTwo_of_src_outside ha' hd (checkRange_dreg_outside hsreg.2)),
      faulted_outOfBounds s .register _⟩
  all_goals
    have hsrc : SourceValue s (operandOf st sv) (sourceByte s st sv) :=
      sourceValue_operandOf hsrcTag fun h => Nat.not_le.1 (not_and.1 hsreg h)
  · obtain ⟨b, hb, hbr, -⟩ := hsrcAdmits ▸ hsrc.exists_place
    exact ⟨_, refused (resolveTwo_of_dest_outside hb hd hbr (checkRange_dreg_outside hdreg)),
      faulted_outOfBounds s .register _⟩
  · obtain ⟨t, hexec, hP⟩ := hdone hsrc (Nat.not_le.1 hdreg)
    rw [← hdt0] at hexec
    exact ⟨t, (step_opcodeAt hat hinside).trans hexec, hP⟩

/-- Settles O23. -/
theorem addSubMulFollowTheirRules : Obligations.AddSubMulFollowTheirRules := by
  rintro s opcode f (⟨rfl, rfl⟩ | ⟨rfl, rfl⟩ | ⟨rfl, rfl⟩) hat
  · exact step_destDreg_checks (op := .addB) rfl hat (addCompletes s _ _ _)
  · exact step_destDreg_checks (op := .subB) rfl hat (subCompletes s _ _ _)
  · exact step_destDreg_checks (op := .mulB) rfl hat (mulCompletes s _ _ _)

/-- Settles O24: the zero divisor comes after the checks (R113). -/
theorem divFollowsItsRule : Obligations.DivFollowsItsRule := by
  intro s hat
  refine step_destDreg_checks (op := .divB) rfl hat fun hsrc hindex => ?_
  by_cases hzero : sourceByte s (byteAt s 1) (byteAt s 2) = 0x00
  · simp only [if_pos hzero]
    exact ⟨_, exec_divB_zero (hzero ▸ hsrc) hindex, faulted_divisionByZero s⟩
  · simp only [if_neg hzero]
    exact divCompletes s _ _ _ hsrc hindex hzero

/-- R72: what a slot for a register, a cell or an immediate answers to every other tag. -/
theorem admitted_dreg_mem_imm_refused {tag : Byte} (htag : tag ≠ 0x00 ∧ tag ≠ 0x02 ∧ tag ≠ 0x03)
    (value : Byte) :
    admitted [.dreg, .mem, .imm] (operandOf tag value) = .error (.unsupportedAddressingMode tag) := by
  obtain ⟨h0, h2, h3⟩ : tag ≠ 0#8 ∧ tag ≠ 2#8 ∧ tag ≠ 3#8 := htag
  simp [admitted_operandOf, h0, h2, h3]

/-- R95, R96, for the bytes of an operand that is admitted and exists. -/
theorem withOne_count_operandOf {op : Op} (hU : op.format = .U) (f : Byte → Byte) (s : State)
    {tag value : Byte} (htag : tag = 0x00 ∨ tag = 0x02 ∨ tag = 0x03)
    (hindex : tag = 0x00 → value.toNat < s.cfg.numDregs)
    (haddress : tag = 0x02 → value.toNat < s.cfg.memCap) :
    ∃ t, withOne op (operandOf tag value) s (s.count op f) = .next t ∧
      (if tag = 0x00 then
        RegisterWritten s t value.toNat (f (s.readDreg value.toNat)) ∧
        FlagsOfStep s t (f (s.readDreg value.toNat))
      else if tag = 0x02 then
        CellWritten s t value.toNat (f (s.readMem value.toNat)) ∧
        FlagsOfStep s t (f (s.readMem value.toNat))
      else NothingWritten s t ∧ FlagsOfStep s t (f value)) ∧
      Advanced s t 3 := by
  rcases htag with rfl | rfl | rfl
  · obtain ⟨t, ht, hw, hf, hadv⟩ := withOne_count_dreg hU f s (hindex rfl)
    exact ⟨t, ht, ⟨hw, hf⟩, hadv⟩
  · obtain ⟨t, ht, hw, hf, hadv⟩ := withOne_count_mem hU f s (haddress rfl)
    exact ⟨t, ht, ⟨hw, hf⟩, hadv⟩
  · obtain ⟨t, ht, hw, hf, hadv⟩ := withOne_count_imm hU f s value
    exact ⟨t, ht, ⟨hw, hf⟩, hadv⟩

/-- R72: a refused operand of format U. -/
theorem resolveOne_of_refused {op : Op} {dest : Operand} {cfg : Config} {r : Raise}
    (hd : admitted (destAdmits op) dest = .error r) : resolveOne op dest cfg = .error r := by
  simp [resolveOne, hd]

/-- R73: an operand of format U that does not exist. -/
theorem resolveOne_of_outside {op : Op} {dest : Operand} {cfg : Config} {d : Place} {r : Raise}
    (hd : admitted (destAdmits op) dest = .ok d) (hr : checkRange cfg d = .error r) :
    resolveOne op dest cfg = .error r := by
  simp [resolveOne, hd, hr]

/-- R36, R37: the step at the bytes of any instruction of format U whose checks fail. -/
theorem step_of_resolveOne_error {s : State} {op : Op} {r : Raise} (hU : op.format = .U)
    (hat : OpcodeAt s op.code) (hlen : s.pc.toNat + op.length ≤ s.cfg.memCap)
    (h : resolveOne op (operandOf (byteAt s 1) (byteAt s 2)) s.cfg = .error r) :
    step s = .next (s.raise r) := by
  have hfault (f : Place → State) :
      withOne op (operandOf (byteAt s 1) (byteAt s 2)) s f = .next (s.raise r) := by rw [withOne, h]
  rw [step_opcodeAt hat hlen]
  cases op with
  | inc | dec => exact hfault _
  | noop | halt | moveB | addB | subB | mulB | divB | cmpB | jmp | jnz | jng | jeq | jne => cases hU

/-- R37, R113: the checks of the bytes of `inc` and `dec` fail in this order; where all pass, `P` says
what the execute phase leaves. -/
theorem step_formatU_checks {op : Op} {s : State} {P : State → Prop} (hU : op.format = .U)
    (hat : OpcodeAt s op.code) :
    let dt := byteAt s 1
    let dv := byteAt s 2
    ((dt = 0x00 ∨ dt = 0x02 ∨ dt = 0x03) → (dt = 0x00 → dv.toNat < s.cfg.numDregs) →
      (dt = 0x02 → dv.toNat < s.cfg.memCap) → ∃ t, exec (s.instrAt op) s = .next t ∧ P t) →
    ∃ t, step s = .next t ∧
      if s.cfg.memCap < s.pc.toNat + 3 then Faulted s t .outOfBounds .fetch s.cfg.memCap
      else if dt ≠ 0x00 ∧ dt ≠ 0x02 ∧ dt ≠ 0x03 then
        Faulted s t .unsupportedAddressingMode .none dt.toNat
      else if dt = 0x00 ∧ s.cfg.numDregs ≤ dv.toNat then Faulted s t .outOfBounds .register dv.toNat
      else if dt = 0x02 ∧ s.cfg.memCap ≤ dv.toNat then Faulted s t .outOfBounds .data dv.toNat
      else P t := by
  intro dt dv hdone
  have hlength : op.length = 3 := congrArg Format.length hU
  have hadmits := destAdmits_of_format_U hU
  split_ifs with hlen hdt hdreg hdmem
  · exact ⟨_, step_opcodeAt_truncated hat (hlength ▸ hlen), faulted_outOfBounds s .fetch _⟩
  all_goals
    have hinside : s.pc.toNat + op.length ≤ s.cfg.memCap := hlength ▸ Nat.not_lt.1 hlen
    have refused {r : Raise} := step_of_resolveOne_error (r := r) hU hat hinside
  · exact ⟨_, refused (resolveOne_of_refused (hadmits ▸ admitted_dreg_mem_imm_refused hdt dv)),
      faulted_unsupportedAddressingMode s dt⟩
  · have hd : admitted (destAdmits op) (operandOf dt dv) = .ok (.dreg dv) := by
      rw [hadmits, hdreg.1]; rfl
    exact ⟨_, refused (resolveOne_of_outside hd (checkRange_dreg_outside hdreg.2)),
      faulted_outOfBounds s .register _⟩
  · have hd : admitted (destAdmits op) (operandOf dt dv) = .ok (.mem dv) := by
      rw [hadmits, hdmem.1]; rfl
    exact ⟨_, refused (resolveOne_of_outside hd (checkRange_mem_outside hdmem.2)),
      faulted_outOfBounds s .data _⟩
  · have htag : dt = 0x00 ∨ dt = 0x02 ∨ dt = 0x03 := by
      by_contra hno
      exact hdt (by simpa only [not_or] using hno)
    obtain ⟨t, hexec, hP⟩ := hdone htag (fun h => Nat.not_le.1 (not_and.1 hdreg h))
      (fun h => Nat.not_le.1 (not_and.1 hdmem h))
    exact ⟨t, (step_opcodeAt hat hinside).trans hexec, hP⟩

/-- Settles O25. -/
theorem incDecFollowTheirRules : Obligations.IncDecFollowTheirRules := by
  rintro s opcode delta (⟨rfl, rfl⟩ | ⟨rfl, rfl⟩) hat
  · exact step_formatU_checks (op := .inc) rfl hat (withOne_count_operandOf rfl incByte s)
  · exact step_formatU_checks (op := .dec) rfl hat (withOne_count_operandOf rfl decByte s)

/-! ### Z and E after a difference (R91, R97) -/

/-- R36: a step that does not fault is the execute phase of the instruction at pc. -/
theorem exec_of_step_not_faulted {s t : State} {op : Op} (hat : OpcodeAt s op.code)
    (h : step s = .next t) (ht : t.status ≠ .faulted) : exec (s.instrAt op) s = .next t := by
  by_cases hlen : s.pc.toNat + op.length ≤ s.cfg.memCap
  · exact (step_opcodeAt hat hlen).symm.trans h
  · rw [step_opcodeAt_truncated hat (Nat.not_le.1 hlen)] at h
    cases h
    exact absurd rfl ht

/-- R24: the flags of a difference say twice that the operands are equal. -/
theorem afterResult_subBytes_z_eq_e (f : Flags) (y x : Byte) :
    (f.afterResult (subBytes y x) y x).z = (f.afterResult (subBytes y x) y x).e := by
  rw [Flags.afterResult_z, Flags.afterResult_e, Bool.eq_iff_iff, beq_iff_eq, beq_iff_eq]
  exact subBytes_eq_zero y x

/-- Settles O27: both instructions set the flags of `dest - src`. -/
theorem subAndCompareLeaveZEqualToE : Obligations.SubAndCompareLeaveZEqualToE := by
  intro s t hat h ht
  rcases hat with hat | hat
  · obtain ⟨a, d, rfl, -⟩ := withTwo_completed (exec_of_step_not_faulted (op := .subB) hat h ht) ht
    exact afterResult_subBytes_z_eq_e _ _ _
  · obtain ⟨a, d, rfl, -⟩ := withTwo_completed (exec_of_step_not_faulted (op := .cmpB) hat h ht) ht
    exact afterResult_subBytes_z_eq_e _ _ _

end Sys2Proof.Machine
end

section
/-! Compare (42_compare.md R97, R98): `cmp.b` as a term, what its flags tell, and `cmp.b` as bytes at
pc, with the checks in the order of R113. -/

namespace Sys2Proof.Machine

/-! ### `cmp.b` completes (R97) -/

/-- Settles O39: both slots admit what has a value, and the execute phase writes flags and pc only. -/
theorem compareCompletes : Obligations.CompareCompletes := by
  intro s src dest x y hsrc hdest
  obtain ⟨a, ha, har, rfl⟩ := hsrc.exists_place
  obtain ⟨d, hd, hdr, rfl⟩ := hdest.exists_place
  exact ⟨_, withTwo_of_resolveTwo (resolveTwo_of_inRange ha hd har hdr),
    nothingWritten_of s _ rfl rfl, rfl, advanced_of s _ .cmpB 5 rfl rfl rfl rfl rfl⟩

/-! ### What the flags tell (R98) -/

/-- R11, R27: bit 7 of a byte is its sign. -/
theorem getLsbD_seven_iff (r : Byte) : r.getLsbD 7 = true ↔ r.toInt < 0 := by
  have hmsb : r.msb = r.getLsbD 7 := BitVec.msb_eq_getLsbD_last r
  rw [← hmsb, BitVec.msb_eq_toInt, decide_eq_true_iff]

/-- R12: an integer that fits in a signed byte keeps its sign when wrapped. -/
theorem wrap8_sign_of_fits {n : Int} (h : -128 ≤ n ∧ n ≤ 127) :
    (wrap8 n).getLsbD 7 = true ↔ n < 0 := by
  have hread : (wrap8 n).toInt = n := by
    rw [wrap8, BitVec.toInt_ofInt]
    exact Int.bmod_eq_of_le_mul_two (by omega) (by omega)
  rw [getLsbD_seven_iff, hread]

/-- R12: an integer outside the signed range, by less than 128 on either side, changes its sign when
wrapped: it moves by 256 into the range. -/
theorem wrap8_sign_of_not_fits {n : Int} (hlow : -256 ≤ n) (hhigh : n < 256)
    (h : ¬ (-128 ≤ n ∧ n ≤ 127)) : (wrap8 n).getLsbD 7 = true ↔ ¬ n < 0 := by
  have hread : (wrap8 n).toInt = if n < 0 then n + 256 else n - 256 := by
    rw [wrap8, BitVec.toInt_ofInt, Int.bmod_def]
    split_ifs <;> omega
  rw [getLsbD_seven_iff, hread]
  split_ifs <;> omega

/-- R12: the exact difference of two signed bytes. -/
theorem toInt_sub_toInt_bounds (b a : Byte) :
    -256 ≤ b.toInt - a.toInt ∧ b.toInt - a.toInt < 256 := by
  have hblow : -128 ≤ b.toInt := b.le_toInt
  have halow : -128 ≤ a.toInt := a.le_toInt
  have hbhigh : b.toInt < 128 := b.toInt_lt
  have hahigh : a.toInt < 128 := a.toInt_lt
  omega

/-- R98: N says `b < a` of the signed readings while the difference does not wrap. -/
theorem subBytes_sign_of_fits {b a : Byte} (h : -128 ≤ b.toInt - a.toInt ∧ b.toInt - a.toInt ≤ 127) :
    (subBytes b a).getLsbD 7 = true ↔ b.toInt < a.toInt :=
  (wrap8_sign_of_fits h).trans sub_neg

/-- R98: N says the opposite where the difference wraps. -/
theorem subBytes_sign_of_not_fits {b a : Byte}
    (h : ¬ (-128 ≤ b.toInt - a.toInt ∧ b.toInt - a.toInt ≤ 127)) :
    (subBytes b a).getLsbD 7 = true ↔ ¬ b.toInt < a.toInt := by
  obtain ⟨hlow, hhigh⟩ := toInt_sub_toInt_bounds b a
  exact (wrap8_sign_of_not_fits hlow hhigh h).trans (not_congr sub_neg)

/-- Settles O40, from the flags that O39 leaves. The differences 1 - 0 and 0 - 255 are the same byte,
of operands that are not equal. -/
theorem compareFlagsTellTheOrder : Obligations.CompareFlagsTellTheOrder := by
  refine ⟨fun s src dest a b hsrc hdest => ?_, fun s => ?_, fun s => ?_⟩
  · obtain ⟨t, hexec, -, hflags, -⟩ := compareCompletes s src dest a b hsrc hdest
    refine ⟨t, hexec, ?_⟩
    rw [hflags]
    exact ⟨decide_eq_true_iff, decide_eq_true_iff.trans (subBytes_eq_zero b a),
      subBytes_sign_of_fits, subBytes_sign_of_not_fits, rfl, rfl⟩
  · obtain ⟨t, hexec, -, hflags, -⟩ := compareCompletes s (.imm 0x9C) (.imm 0x64) _ _ rfl rfl
    refine ⟨t, hexec, ?_⟩
    rw [hflags]
    exact (subBytes_sign_of_not_fits (b := 0x64) (a := 0x9C) (by decide)).2 (by decide)
  · obtain ⟨t, ht, -, htflags, -⟩ := compareCompletes s (.imm 0x00) (.imm 0x01) _ _ rfl rfl
    obtain ⟨u, hu, -, huflags, -⟩ := compareCompletes s (.imm 0xFF) (.imm 0x00) _ _ rfl rfl
    exact ⟨t, u, ht, hu, htflags.trans huflags.symm⟩

/-! ### `cmp.b` at the bytes in memory -/

/-- R66, R72: the place a register tag names in a slot for a register or an immediate. -/
theorem admitted_dreg_imm_register {tag : Byte} (htag : tag = 0x00) (value : Byte) :
    admitted [.dreg, .imm] (operandOf tag value) = .ok (.dreg value) := by
  rw [htag]; rfl

/-- Settles O26, clause by clause: the checks fail in the order of R113, the same two kinds admitted in
each slot, and a `cmp.b` that passes them all completes as O39 says. -/
theorem compareFollowsItsRule : Obligations.CompareFollowsItsRule := by
  intro s hat
  dsimp only
  split_ifs with hlen hst hdt hsreg hdreg
  · exact ⟨_, step_opcodeAt_truncated (op := .cmpB) hat hlen, faulted_outOfBounds s .fetch _⟩
  all_goals
    have hinside : s.pc.toNat + Op.cmpB.length ≤ s.cfg.memCap := Nat.not_lt.1 hlen
    have refused {r : Raise} := step_of_resolveTwo_error (r := r) (op := .cmpB) rfl hat hinside
  · exact ⟨_, refused (resolveTwo_of_src_refused (admitted_dreg_imm_refused hst _)),
      faulted_unsupportedAddressingMode s _⟩
  all_goals have hsrcTag := or_iff_not_and_not.2 hst
  · obtain ⟨a, ha⟩ := admitted_dreg_imm hsrcTag (byteAt s 2)
    exact ⟨_, refused (resolveTwo_of_dest_refused ha (admitted_dreg_imm_refused hdt _)),
      faulted_unsupportedAddressingMode s _⟩
  all_goals have hdestTag := or_iff_not_and_not.2 hdt
  · obtain ⟨hst0, hsv⟩ := hsreg
    obtain ⟨d, hd⟩ := admitted_dreg_imm hdestTag (byteAt s 4)
    have outside := checkRange_dreg_outside hsv
    exact ⟨_, refused (resolveTwo_of_src_outside (admitted_dreg_imm_register hst0 _) hd outside),
      faulted_outOfBounds s .register _⟩
  all_goals have hsrc := sourceValue_operandOf hsrcTag fun h => Nat.not_le.1 (not_and.1 hsreg h)
  · obtain ⟨hdt0, hdv⟩ := hdreg
    obtain ⟨p, hp, hpr, -⟩ := hsrc.exists_place
    have outside := checkRange_dreg_outside hdv
    exact ⟨_, refused (resolveTwo_of_dest_outside hp (admitted_dreg_imm_register hdt0 _) hpr outside),
      faulted_outOfBounds s .register _⟩
  · have hdest := sourceValue_operandOf hdestTag fun h => Nat.not_le.1 (not_and.1 hdreg h)
    obtain ⟨t, hexec, hdone⟩ := compareCompletes s _ _ _ _ hsrc hdest
    exact ⟨t, (step_opcodeAt (op := .cmpB) hat hinside).trans hexec, hdone⟩

end Sys2Proof.Machine
end

section
/-! Control transfer (43_branch.md R99 to R104): where each branch goes, that it changes nothing else,
and the fault of a target outside memory at the next fetch. -/

namespace Sys2Proof.Machine

/-! ### Once for the five branches (R99) -/

/-- R99: where a branch goes. -/
@[simp] theorem State.branch_pc (s : State) (op : Op) (taken : Bool) (target : Byte) :
    (s.branch op taken target).pc =
      if taken then zext16 target else s.pc + BitVec.ofNat 16 op.length := by cases taken <;> rfl

theorem nothingWritten_branch (s : State) (op : Op) (taken : Bool) (target : Byte) :
    NothingWritten s (s.branch op taken target) :=
  ⟨State.branch_readDreg s op taken target, State.branch_readMem s op taken target⟩

theorem keepsControl_branch (s : State) (op : Op) (taken : Bool) (target : Byte) :
    KeepsControl s (s.branch op taken target) := by
  cases taken <;> exact ⟨rfl, rfl, rfl⟩

/-- R30, R99: neither way on wraps, when the branch lies inside memory. -/
theorem toNat_branch_pc {s : State} {op : Op} (hlen : s.pc.toNat + op.length ≤ s.cfg.memCap)
    (taken : Bool) (target : Byte) :
    (s.branch op taken target).pc.toNat =
      if taken then target.toNat else s.pc.toNat + op.length := by
  rw [State.branch_pc]
  cases taken with
  | true => exact toNat_zext16 target
  | false => exact toNat_advance_pc hlen

/-- R99: the target is checked by the fetch after the branch. -/
theorem step_branch_outside {s : State} (op : Op) {target : Byte} (hs : s.status = .running)
    (htarget : s.cfg.memCap ≤ target.toNat) :
    ∃ u, step (s.branch op true target) = .next u ∧
      Faulted (s.branch op true target) u .outOfBounds .fetch target.toNat := by
  have hpc : (s.branch op true target).pc.toNat = target.toNat := toNat_zext16 target
  have hstep := step_outside (s := s.branch op true target) hs (htarget.trans_eq hpc.symm)
  rw [hpc] at hstep
  exact ⟨_, hstep, faulted_outOfBounds _ .fetch _⟩

/-! ### The branches as terms, and at the bytes in memory -/

/-- Settles O41: each branch is the common one on its own condition. -/
theorem branchesComplete : Obligations.BranchesComplete := by
  intro s target goes
  have branch_goes {op : Op} (hJ : op.format = .J) (taken : Bool) :
      goes (s.branch op taken target) taken := by
    have hlength : op.length = 2 := congrArg Format.length hJ
    have hpc := State.branch_pc s op taken target
    rw [hlength] at hpc
    exact ⟨hpc, nothingWritten_branch s op taken target,
      State.branch_flags s op taken target, keepsControl_branch s op taken target⟩
  exact ⟨⟨_, rfl, branch_goes rfl true⟩, ⟨_, rfl, branch_goes rfl s.flags.z⟩,
    ⟨_, rfl, branch_goes rfl s.flags.n⟩, ⟨_, rfl, branch_goes rfl s.flags.e⟩,
    ⟨_, rfl, branch_goes rfl (!s.flags.e)⟩⟩

/-- Settles O28: the opcode and its condition fix the row of the branch, and the rest is said once for
any row of format J. A branch that runs past the end lacks its target byte, so memory ends at `pc + 1`. -/
theorem branchesFollowTheirRules : Obligations.BranchesFollowTheirRules := by
  intro s opcode taken hcondition hat
  obtain ⟨op, rfl, hJ, hexec⟩ : ∃ op : Op, op.code = opcode ∧ op.format = .J ∧
      exec (s.instrAt op) s = .next (s.branch op taken (byteAt s 1)) := by
    rcases hcondition with ⟨rfl, rfl⟩ | ⟨rfl, rfl⟩ | ⟨rfl, rfl⟩ | ⟨rfl, rfl⟩ | ⟨rfl, rfl⟩
    · exact ⟨.jmp, rfl, rfl, rfl⟩
    · exact ⟨.jnz, rfl, rfl, rfl⟩
    · exact ⟨.jng, rfl, rfl, rfl⟩
    · exact ⟨.jeq, rfl, rfl, rfl⟩
    · exact ⟨.jne, rfl, rfl, rfl⟩
  have hlength : op.length = 2 := congrArg Format.length hJ
  have ⟨hrunning, hinside, _⟩ := hat
  by_cases hlen : s.cfg.memCap < s.pc.toNat + 2
  · have hend : s.cfg.memCap = s.pc.toNat + 1 := by omega
    simp only [if_pos hlen, ← hend]
    exact ⟨_, step_opcodeAt_truncated hat (hlength ▸ hlen), faulted_outOfBounds s .fetch _⟩
  · have hfits : s.pc.toNat + op.length ≤ s.cfg.memCap := hlength ▸ Nat.not_lt.1 hlen
    have hpc := toNat_branch_pc hfits taken (byteAt s 1)
    rw [hlength] at hpc
    simp only [if_neg hlen]
    refine ⟨_, (step_opcodeAt hat hfits).trans hexec, hpc, nothingWritten_branch s op taken _,
      State.branch_flags s op taken _, keepsControl_branch s op taken _, ?_⟩
    rintro rfl htarget
    exact step_branch_outside op hrunning htarget

end Sys2Proof.Machine
end

section
/-! Control (44_control.md R106, R107): `noop` and `halt` as terms and as bytes at pc, and the run of
`noop`s through zeroed memory (70_reset_and_hazards.md R125). -/

namespace Sys2Proof.Machine

/-! ### The two instructions, as terms and at pc -/

theorem nothingWritten_advance (s : State) (op : Op) : NothingWritten s (s.advance op) :=
  nothingWritten_of s _ rfl rfl

/-- Settles O42. -/
theorem noopAndHaltComplete : Obligations.NoopAndHaltComplete := by
  intro s
  refine ⟨⟨s.advance .noop, rfl, nothingWritten_advance s .noop, rfl, ?_⟩,
    ⟨{ s.advance .halt with status := .halted }, rfl, nothingWritten_advance s .halt, rfl, rfl,
      rfl, rfl, rfl⟩⟩
  exact advanced_of s _ .noop 1 rfl rfl rfl rfl rfl

/-- R106: a step at a `noop` only moves pc past it. -/
theorem step_noop {s : State} (h : OpcodeAt s Op.noop.code) : step s = .next (s.advance .noop) := by
  have hlen : s.pc.toNat + Op.noop.length ≤ s.cfg.memCap := h.2.1
  exact step_opcodeAt h hlen

/-- Settles O29: the step at either byte is the instruction's execute phase (O42), and the state after
`halt` is terminal. -/
theorem noopAndHaltFollowTheirRules : Obligations.NoopAndHaltFollowTheirRules := by
  intro s
  obtain ⟨⟨t, hnoop, ht⟩, u, hhalt, hwritten, hflags, hpc, hstatus, hfault, hcfg⟩ :=
    noopAndHaltComplete s
  have hstays : step u = .next u := (terminalStatesStay u (.inl hstatus)).1
  exact ⟨fun hat => ⟨t, (step_noop hat).trans hnoop, ht⟩, fun hat =>
    ⟨u, (step_halt hat).trans hhalt, hstatus, hpc, hwritten, hflags, hfault, hcfg, hstays⟩⟩

/-! ### Zeroed memory -/

/-- What `n` executions of `noop` leave: pc has moved `n` cells on. -/
def State.skip (s : State) (n : Nat) : State := { s with pc := s.pc + BitVec.ofNat 16 n }

@[simp] theorem State.skip_zero (s : State) : s.skip 0 = s := by simp [State.skip]

theorem State.skip_advance_noop (s : State) (n : Nat) :
    (s.advance .noop).skip n = s.skip (n + 1) := by
  have hpc : s.pc + BitVec.ofNat 16 1 + BitVec.ofNat 16 n = s.pc + BitVec.ofNat 16 (n + 1) := by
    rw [BitVec.add_assoc, ← BitVec.ofNat_add, Nat.add_comm 1 n]
  exact congrArg (fun pc => { s with pc := pc }) hpc

/-- R106: `n` zero bytes at pc run as `n` `noop`s, by induction on how many there are. -/
theorem runFor_noops (n more : Nat) {s : State} (hs : s.status = .running)
    (hcap : s.pc.toNat + n ≤ s.cfg.memCap) (hzero : ∀ k < n, byteAt s k = 0x00) :
    runFor (n + more) s = runFor more (s.skip n) := by
  induction n generalizing s with
  | zero => rw [Nat.zero_add, State.skip_zero]
  | succ n ih =>
    have hat : OpcodeAt s Op.noop.code := ⟨hs, by omega, hzero 0 n.succ_pos⟩
    have hpc : (s.advance .noop).pc.toNat = s.pc.toNat + 1 := toNat_advance_pc (n := 1) (by omega)
    have hnext : ∀ k < n, byteAt (s.advance .noop) k = 0x00 := fun k hk => by
      rw [byteAt, hpc, Nat.add_assoc, Nat.add_comm 1 k]
      exact hzero (k + 1) (by omega)
    calc runFor (n + 1 + more) s
      _ = runFor (n + more) (s.advance .noop) := by
        rw [Nat.add_right_comm, runFor_succ hs (step_noop hat)]
      _ = runFor more ((s.advance .noop).skip n) := ih hs (by rw [hpc, State.advance_cfg]; omega) hnext
      _ = runFor more (s.skip (n + 1)) := by rw [State.skip_advance_noop]

/-- Settles O50: the `noop`s bring pc to the end of memory, and one more step takes the fetch fault. -/
theorem zeroedMemoryRunsOffTheEnd : Obligations.ZeroedMemoryRunsOffTheEnd := by
  intro s hs hpc hzero
  obtain ⟨n, hn⟩ := Nat.exists_eq_add_of_le hpc
  have hend : (s.skip n).pc.toNat = s.cfg.memCap := (toNat_advance_pc hn.ge).trans hn.symm
  have hnoops : runFor (n + 1) s = runFor 1 (s.skip n) :=
    runFor_noops n 1 hs hn.ge fun k hk => hzero _ (by omega) (by omega)
  have hfault := step_outside (s := s.skip n) hs hend.ge
  have hinfo := toNat_outOfBounds_info .fetch (s.skip n).pc.isLt
  exact ⟨_, ⟨n + 1, hnoops.trans (runFor_succ hs hfault), by simp⟩, rfl, rfl, rfl, hinfo.trans hend,
    hend, fun _ => rfl, fun _ => rfl, rfl⟩

end Sys2Proof.Machine
end

section
/-! Faults (60_exceptions.md R108 to R113): the fault of an unassigned opcode, and which rows of the
opcode map can raise which fault. -/

namespace Sys2Proof.Machine

/-! ### An unassigned opcode byte (R109) -/

/-- R71, R109: the step at an unassigned opcode byte asks for no byte after it. -/
theorem step_unknownOpcode {s : State} {opcode : Byte} (hat : OpcodeAt s opcode)
    (hop : lookupOpcode opcode = none) : step s = .next (s.raise (.unknownOpcode opcode)) := by
  obtain ⟨hs, hpc, rfl⟩ := hat
  have hfetch : s.fetch = .error (.unknownOpcode (s.readMem s.pc.toNat)) := s.fetch_unknown hpc hop
  simp [step, hs, hfetch]

/-- Settles O10. -/
theorem unassignedOpcodeFaults : Obligations.UnassignedOpcodeFaults := fun s opcode hat hop =>
  ⟨_, step_unknownOpcode hat ((lookupOpcode_eq_none_iff opcode).2 hop), faulted_unknownOpcode s opcode⟩

/-! ### What the checks of a row can raise (R110, R112) -/

/-- The faults that the execute phase of the row `op` can raise: those of the checks of its operands,
and the zero divisor. Only the rows 0x02 to 0x09 have operands to check, and only three of them a slot
that admits a memory cell (R68). -/
inductive ExecRaise (op : Op) : Raise → Prop
  /-- R112. -/
  | form (hop : 0x02 ≤ op.code.toNat ∧ op.code.toNat ≤ 0x09) (tag : Byte) :
      ExecRaise op (.unsupportedAddressingMode tag)
  /-- R110, of a register. -/
  | register (hop : 0x02 ≤ op.code.toNat ∧ op.code.toNat ≤ 0x09) (index : Byte) :
      ExecRaise op (.outOfBounds .register index.toNat)
  /-- R110, of a memory cell. -/
  | cell (hop : op = .moveB ∨ op = .inc ∨ op = .dec) (address : Byte) :
      ExecRaise op (.outOfBounds .data address.toNat)
  /-- R111. -/
  | zeroDivisor (hop : op = .divB) : ExecRaise op .divisionByZero

/-- R68: no source slot admits a memory cell. -/
theorem srcAdmits_not_mem (op : Op) : ¬ (srcAdmits op).contains .mem = true := by
  cases op <;> decide

section Checks

variable {op : Op} {kinds : List Kind} {o src dest : Operand} {cfg : Config} {p : Place} {r : Raise}
  {s t : State} (hop : 0x02 ≤ op.code.toNat ∧ op.code.toNat ≤ 0x09)
include hop

/-- R72: the fault of an operand whose form is refused. -/
theorem execRaise_of_refused (h : admitted kinds o = .error r) : ExecRaise op r := by
  rw [admitted_eq_error h]
  exact .form hop o.tag

/-- R73: the fault of an admitted operand that is out of range. It is a memory cell only if the slot
admits one. -/
theorem execRaise_of_outside
    (hcell : kinds.contains .mem = true → op = .moveB ∨ op = .inc ∨ op = .dec)
    (hp : admitted kinds o = .ok p) (h : checkRange cfg p = .error r) : ExecRaise op r := by
  rcases checkRange_eq_error h with ⟨index, -, -, rfl⟩ | ⟨address, rfl, -, rfl⟩
  · exact .register hop index
  · rcases admitted_eq_ok hp with ⟨_, -, hdreg, -⟩ | ⟨_, -, -, hmem⟩ | ⟨_, -, himm, -⟩
    · cases hdreg
    · exact .cell (hcell hmem) address
    · cases himm

/-- R72, R73: the fault of a failed check of format U. -/
theorem execRaise_of_resolveOne (h : resolveOne op dest cfg = .error r) : ExecRaise op r := by
  unfold resolveOne at h
  split at h
  next hd =>
    cases h
    exact execRaise_of_refused hop hd
  next d hd =>
    split at h
    next hrange =>
      cases h
      exact execRaise_of_outside hop op_of_destAdmits_mem hd hrange
    next => cases h

/-- R72, R73: the fault of a failed check of format B. -/
theorem execRaise_of_resolveTwo (h : resolveTwo op src dest cfg = .error r) : ExecRaise op r := by
  unfold resolveTwo at h
  split at h
  next ha =>
    cases h
    exact execRaise_of_refused hop ha
  next a ha =>
    split at h
    next hd =>
      cases h
      exact execRaise_of_refused hop hd
    next d hd =>
      split at h
      next hrange =>
        cases h
        exact execRaise_of_outside hop (absurd · (srcAdmits_not_mem op)) ha hrange
      next =>
        split at h
        next hrange =>
          cases h
          exact execRaise_of_outside hop op_of_destAdmits_mem hd hrange
        next => cases h

/-- R37: an instruction of format U ends in `Faulted` by its checks, or by what it executes. -/
theorem withOne_faulted {f : Place → State}
    (hf : ∀ d, (f d).status = .faulted → ∃ r, f d = s.raise r ∧ ExecRaise op r)
    (h : withOne op dest s f = .next t) (ht : t.status = .faulted) :
    ∃ r, t = s.raise r ∧ ExecRaise op r := by
  unfold withOne at h
  split at h
  next r hr =>
    cases h
    exact ⟨r, rfl, execRaise_of_resolveOne hop hr⟩
  next d _ =>
    cases h
    exact hf d ht

/-- R37: as for format U, with two places. -/
theorem withTwo_faulted {f : Place → Place → State}
    (hf : ∀ a d, (f a d).status = .faulted → ∃ r, f a d = s.raise r ∧ ExecRaise op r)
    (h : withTwo op src dest s f = .next t) (ht : t.status = .faulted) :
    ∃ r, t = s.raise r ∧ ExecRaise op r := by
  unfold withTwo at h
  split at h
  next r hr =>
    cases h
    exact ⟨r, rfl, execRaise_of_resolveTwo hop hr⟩
  next a d _ =>
    cases h
    exact hf a d ht

end Checks

/-! ### What the execute phase of a row can raise (R110 to R113) -/

@[simp] theorem State.combine_status (s : State) (op : Op) (f : Byte → Byte → Byte) (a d : Place) :
    (s.combine op f a d).status = s.status := by simp [State.combine]

@[simp] theorem State.count_status (s : State) (op : Op) (f : Byte → Byte) (d : Place) :
    (s.count op f d).status = s.status := by simp [State.count]

@[simp] theorem State.branch_status (s : State) (op : Op) (taken : Bool) (target : Byte) :
    (s.branch op taken target).status = s.status := by cases taken <;> rfl

/-- R108: an execute phase that ends in `Faulted` is a raise that its row allows. Past the checks only a
zero divisor faults. -/
theorem exec_faulted {op : Op} {s t : State} (hs : s.status = .running)
    (h : exec (s.instrAt op) s = .next t) (ht : t.status = .faulted) :
    ∃ r, t = s.raise r ∧ ExecRaise op r := by
  cases op with
  | moveB | addB | subB | mulB | cmpB =>
    exact withTwo_faulted (by decide) (fun a d => by simp [hs]) h ht
  | divB =>
    refine withTwo_faulted (by decide) (fun a d hd => ?_) h ht
    split at hd
    next hzero => exact ⟨_, if_pos hzero, .zeroDivisor rfl⟩
    next => simp [hs] at hd
  | inc | dec => exact withOne_faulted (by decide) (fun d => by simp [hs]) h ht
  | noop | halt | jmp | jnz | jng | jeq | jne =>
    cases h
    simp [hs] at ht

/-- Settles O15, by where the fault comes from: the fetch, or the execute phase of the row at pc. -/
theorem eachFaultComesFromItsInstructions : Obligations.EachFaultComesFromItsInstructions := by
  rintro s t ⟨hs, hstep⟩ ht
  rcases step_running_cases s hs with ⟨r, hr, h⟩ | ⟨op, hat, -, h⟩
  · cases h.symm.trans hstep
    rcases hr with ⟨hpc, rfl⟩ | ⟨hpc, hop, rfl⟩ | ⟨op, hat, hlen, rfl⟩
    · exact .inr (.inl ⟨rfl, rfl, .inl hpc⟩)
    · exact .inl ⟨rfl, rfl, hpc, le_toNat_of_lookupOpcode_eq_none hop⟩
    · exact .inr (.inl ⟨rfl, rfl, .inr ⟨op, hat, hlen⟩⟩)
  · obtain ⟨r, rfl, hr⟩ := exec_faulted hs (h.symm.trans hstep) ht
    rw [hat.byteAt_zero]
    cases hr with
    | register hop index => exact .inr (.inr (.inl ⟨rfl, rfl, hop⟩))
    | cell hop address =>
      have hcode : op.code = 0x02 ∨ op.code = 0x07 ∨ op.code = 0x08 :=
        hop.imp (congrArg Op.code) (.imp (congrArg Op.code) (congrArg Op.code))
      exact .inr (.inr (.inr (.inl ⟨rfl, rfl, hcode⟩)))
    | zeroDivisor hop =>
      exact .inr (.inr (.inr (.inr (.inl ⟨rfl, rfl, congrArg Op.code hop⟩))))
    | form hop tag => exact .inr (.inr (.inr (.inr (.inr ⟨rfl, rfl, hop⟩))))

end Sys2Proof.Machine
end

section
/-! Construction and inspection of the core (70_reset_and_hazards.md R124, R126, R129). -/

namespace Sys2Proof.Machine

/-! ### Load (R124) -/

/-- R124: an image that fits is accepted: the core as constructed, with the image's bytes in memory. -/
theorem State.load_of_fits {s : State} {image : List Byte} (start : PcWord)
    (h : image.length ≤ s.cfg.memCap) :
    s.load image start = .next { State.fresh s.cfg start with mem := Memory.storeAll [] 0 image } :=
  if_pos h

/-- R124, D20: an image longer than memory is refused. -/
theorem State.load_of_too_long {s : State} {image : List Byte} (start : PcWord)
    (h : s.cfg.memCap < image.length) :
    s.load image start = .refused (.imageTooLong image.length) :=
  if_neg (Nat.not_le_of_lt h)

/-- R124: after an accepted load, memory is the image from address 0 on and 0x00 behind it. -/
theorem State.readMem_of_load {s t : State} {image : List Byte} {start : PcWord}
    (h : s.load image start = .next t) (a : Nat) :
    t.readMem a = if h : a < image.length then image[a] else 0x00 := by
  obtain ⟨-, rfl⟩ := State.load_eq_next h
  simp [State.readMem, Memory.lookup_storeAll, Memory.lookup, Config.unlistedCell]

/-- Settles O2: the image fits or it does not; a `START` outside memory faults at the first fetch. -/
theorem loadConstructsTheCoreOrIsRefused : Obligations.LoadConstructsTheCoreOrIsRefused := by
  refine fun s image start => ⟨fun hfits => ?_, State.load_of_too_long start⟩
  have hload := State.load_of_fits start hfits
  refine ⟨_, hload, fun a _ => State.readMem_of_load hload a, rfl, rfl, rfl, rfl, rfl, rfl,
    fun hstart => ?_⟩
  exact ⟨_, step_outside rfl hstart, faulted_outOfBounds _ .fetch start.toNat⟩

/-- Settles O19. -/
theorem loadEstablishesTheInvariant : Obligations.LoadEstablishesTheInvariant :=
  fun _ _ _ _ => State.load_inv

/-! ### Inspect (R126, R129) -/

/-- R129: the snapshot's registers are the values that a read gives, `d0` first. -/
theorem State.inspect_dregs_getElem? {s : State} {i : Nat} (h : i < s.cfg.numDregs) :
    s.inspect.dregs[i]? = some (s.readDreg i) := by
  simp [State.inspect, h]

/-- R129: the snapshot's cells are the values that a read gives, address 0 first. -/
theorem State.inspect_mem_getElem? {s : State} {a : Nat} (h : a < s.cfg.memCap) :
    s.inspect.mem[a]? = some (s.readMem a) := by
  simp [State.inspect, h]

/-- Settles O51: the two lists by their entries; every other field is copied, or is the code that the
tables of R32 and R35 give it. -/
theorem inspectReturnsTheState : Obligations.InspectReturnsTheState := by
  intro s
  have hdregs : s.inspect.dregs.length = s.cfg.numDregs := by simp [State.inspect]
  have hmem : s.inspect.mem.length = s.cfg.memCap := by simp [State.inspect]
  exact ⟨hdregs, fun _ => State.inspect_dregs_getElem?, hmem, fun _ => State.inspect_mem_getElem?,
    rfl, rfl, rfl, rfl, rfl, rfl, rfl⟩

end Sys2Proof.Machine
end
